-- ==== Sys2Proof/Word.lean ====
section
/-! DEFINITION. Word types: the byte of a register, a memory cell and an operand, and the 9-bit program counter
(spec 00_scope.md R5, R8; 10_state.md R21, R27). -/

namespace Sys2Proof

/-- An unsigned 8-bit value: a register, a memory cell, an opcode or operand byte (R8, R21). -/
abbrev Byte := BitVec 8

/-- The program counter: 9 bits, so that 256 can be held (R27). -/
abbrev Pc := BitVec 9

end Sys2Proof
end

