-- ==== Sys2Proof/Config.lean ====
section
/-! DEFINITION. The parameters of the hardware: the constants the source fixes (spec 00_scope.md R4) and the
configuration it leaves open, OPC and EXT_ALU_OPCODES (R5; 30_encoding.md R85, R88). The default values are in
Decode.lean. The spec leaves no value free after an instruction, so there is no uninterpreted constant here. -/

namespace Sys2Proof

/-- `MEM_SIZE` of R4: the number of memory cells. -/
abbrev memSize : Nat := 256

/-- `NREG` of R4: the number of general registers. -/
abbrev nreg : Nat := 8

/-- `SP_INDEX` of R4: the register used as stack pointer. -/
abbrev spIndex : Nat := 7

/-- `SP_RESET` of R4. -/
abbrev spReset : Byte := 0xF4

/-- `PC_RESET` of R4. -/
abbrev pcReset : Pc := 0

/-- `LOAD_BASE` of R4: the address of the first program byte. -/
abbrev loadBase : Nat := 0

/-- `REG_RESET` of R5: registers 0 to 6 after reset (D10; log 4: DESIGN CHOICE, unsafe). -/
abbrev regReset : Byte := 0x00

/-- The 21 mnemonics: the 16 of R83 and the 5 optional ones of R88. -/
inductive Mnemonic where
  | HLT | LDI | PRN | MUL | ADD | CMP | PUSH | POP | CALL | RET
  | JMP | JEQ | JNE | JLT | JGT | JGE
  | SUB | DIV | MOD | AND | XOR
  deriving DecidableEq, Repr

/-- Every mnemonic, in the order of spec/opcode_table.json. -/
def Mnemonic.all : List Mnemonic :=
  [.HLT, .LDI, .PRN, .MUL, .ADD, .CMP, .PUSH, .POP, .CALL, .RET, .JMP, .JEQ, .JNE, .JLT, .JGT, .JGE]
    ++ [.SUB, .DIV, .MOD, .AND, .XOR]

/-- The instructions that exist only when EXT_ALU_OPCODES is true (R88). -/
def Mnemonic.optional : Mnemonic → Bool
  | .SUB | .DIV | .MOD | .AND | .XOR => true
  | .HLT | .LDI | .PRN | .MUL | .ADD | .CMP | .PUSH | .POP | .CALL | .RET
  | .JMP | .JEQ | .JNE | .JLT | .JGT | .JGE => false

/-- The parameter `OPC` of R5 and R85 as plain data: the opcode byte of each mnemonic. -/
structure OpcodeMap where
  hlt : Byte
  ldi : Byte
  prn : Byte
  mul : Byte
  add : Byte
  cmp : Byte
  push : Byte
  pop : Byte
  call : Byte
  ret : Byte
  jmp : Byte
  jeq : Byte
  jne : Byte
  jlt : Byte
  jgt : Byte
  jge : Byte
  sub : Byte
  div : Byte
  mod : Byte
  and : Byte
  xor : Byte
  deriving DecidableEq, Repr

/-- `OPC(m)` (R84). -/
def OpcodeMap.byte (o : OpcodeMap) : Mnemonic → Byte
  | .HLT => o.hlt
  | .LDI => o.ldi
  | .PRN => o.prn
  | .MUL => o.mul
  | .ADD => o.add
  | .CMP => o.cmp
  | .PUSH => o.push
  | .POP => o.pop
  | .CALL => o.call
  | .RET => o.ret
  | .JMP => o.jmp
  | .JEQ => o.jeq
  | .JNE => o.jne
  | .JLT => o.jlt
  | .JGT => o.jgt
  | .JGE => o.jge
  | .SUB => o.sub
  | .DIV => o.div
  | .MOD => o.mod
  | .AND => o.and
  | .XOR => o.xor

/-- The configuration of a machine (R5, R37): fixed for a run, never written by any instruction. The State record
carries it (log 1: DESIGN CHOICE, safe), because `step` takes a state and nothing else. -/
structure Config where
  /-- `OPC` (R85). -/
  opc : OpcodeMap
  /-- `EXT_ALU_OPCODES` (R88). -/
  extAluOpcodes : Bool
  deriving DecidableEq, Repr

/-- The dispatched instructions: the 16 of R83, and the 5 of R88 when EXT_ALU_OPCODES is true (R84). -/
def Config.dispatches (cfg : Config) (m : Mnemonic) : Bool :=
  !m.optional || cfg.extAluOpcodes

end Sys2Proof
end

