-- ==== Sys2Proof/Syntax.lean ====
section
/-! DEFINITION. The instructions as syntax: one constructor per row of spec/opcode_table.json (spec 30_encoding.md
R83, R88). An operand is the whole operand byte, whatever its value: operand bytes are never illegal at decode (R90). -/

namespace Sys2Proof

/-- The instruction set. `opa` and `opb` are the operand bytes (R81); `imm` is LDI's immediate (R82). -/
inductive Instr where
  | hlt
  | ldi (opa imm : Byte)
  | prn (opa : Byte)
  | mul (opa opb : Byte)
  | add (opa opb : Byte)
  | cmp (opa opb : Byte)
  | push (opa : Byte)
  | pop (opa : Byte)
  | call (opa : Byte)
  | ret
  | jmp (opa : Byte)
  | jeq (opa : Byte)
  | jne (opa : Byte)
  | jlt (opa : Byte)
  | jgt (opa : Byte)
  | jge (opa : Byte)
  | sub (opa opb : Byte)
  | div (opa opb : Byte)
  | mod (opa opb : Byte)
  | and (opa opb : Byte)
  | xor (opa opb : Byte)
  deriving DecidableEq, Repr

/-- The mnemonic of an instruction (R83, R88, R94). -/
def Instr.mnemonic : Instr → Mnemonic
  | .hlt => .HLT
  | .ldi _ _ => .LDI
  | .prn _ => .PRN
  | .mul _ _ => .MUL
  | .add _ _ => .ADD
  | .cmp _ _ => .CMP
  | .push _ => .PUSH
  | .pop _ => .POP
  | .call _ => .CALL
  | .ret => .RET
  | .jmp _ => .JMP
  | .jeq _ => .JEQ
  | .jne _ => .JNE
  | .jlt _ => .JLT
  | .jgt _ => .JGT
  | .jge _ => .JGE
  | .sub _ _ => .SUB
  | .div _ _ => .DIV
  | .mod _ _ => .MOD
  | .and _ _ => .AND
  | .xor _ _ => .XOR

/-- The operand bytes of an instruction, in order: none (F0), `opa` (F1), or `opa` and `opb` (F2) (R81, R83). -/
def Instr.operands : Instr → List Byte
  | .hlt | .ret => []
  | .prn a | .push a | .pop a | .call a | .jmp a | .jeq a | .jne a | .jlt a | .jgt a | .jge a => [a]
  | .ldi a b | .mul a b | .add a b | .cmp a b
  | .sub a b | .div a b | .mod a b | .and a b | .xor a b => [a, b]

/-- The operand bytes of kind `reg` (R82, R83): all of them but LDI's immediate. -/
def Instr.regOperands : Instr → List Byte
  | .hlt | .ret => []
  | .ldi a _ => [a]
  | .prn a | .push a | .pop a | .call a | .jmp a | .jeq a | .jne a | .jlt a | .jgt a | .jge a => [a]
  | .mul a b | .add a b | .cmp a b
  | .sub a b | .div a b | .mod a b | .and a b | .xor a b => [a, b]

end Sys2Proof
end

