-- ==== Sys2Proof/WellFormed.lean ====
section
/-! DEFINITION. Well-formedness: which configurations the spec allows (30_encoding.md R85, R88), which instructions a
configuration dispatches (R84), and which program images can be loaded (70_reset_and_hazards.md R242). A register
operand of 8 or more is NOT ill-formed: it has a defined behaviour, the fault of R82 (log 17). -/

namespace Sys2Proof

/-- R85 and R88: over the dispatched mnemonics `OPC` never gives 0x00 and is injective. -/
def Config.legal (cfg : Config) : Bool :=
  Mnemonic.all.all fun m =>
    !cfg.dispatches m ||
      (cfg.opc.byte m != 0 &&
        Mnemonic.all.all fun m' => !cfg.dispatches m' || cfg.opc.byte m' != cfg.opc.byte m || m' == m)

/-- An instruction is well-formed for a configuration that dispatches its mnemonic (R84, R88). -/
def Instr.wellFormed (cfg : Config) (i : Instr) : Bool :=
  cfg.dispatches i.mnemonic

/-- Every register operand names one of the eight registers, so that no access to a register raises (R82). -/
def Instr.regsInRange (i : Instr) : Bool :=
  i.regOperands.all fun b => b.toNat < nreg

/-- The launch precondition `n <= 256` of R242. -/
def imageFits (image : List Byte) : Bool :=
  image.length ≤ memSize

end Sys2Proof
end

