-- ==== Sys2Proof/Decode.lean ====
section
/-! DEFINITION. The default opcode map (spec 30_encoding.md R86, R88), the decoder on the three-byte fetch window
(R84, R90, R96), the encoder (R81, R83), and the table words of spec/opcode_table.json. The decoder is a lookup of
the whole opcode byte; it never decodes by bit fields of it (R87). -/

namespace Sys2Proof

/-- The default `OPC` of R86 and R88 (log 2: PRESUMED, unsafe: the spec marks these bytes as general knowledge). -/
def defaultOpc : OpcodeMap where
  hlt := 0x01
  ldi := 0x82
  prn := 0x47
  mul := 0xA2
  add := 0xA0
  cmp := 0xA7
  push := 0x45
  pop := 0x46
  call := 0x50
  ret := 0x11
  jmp := 0x54
  jeq := 0x55
  jne := 0x56
  jlt := 0x58
  jgt := 0x57
  jge := 0x5A
  sub := 0xA1
  div := 0xA3
  mod := 0xA4
  and := 0xA8
  xor := 0xAB

/-- The default configuration: the default `OPC`, EXT_ALU_OPCODES false (R5, R88). -/
def defaultConfig : Config where
  opc := defaultOpc
  extAluOpcodes := false

/-- The default `OPC` with EXT_ALU_OPCODES true, under which all 21 rows of spec/opcode_table.json are dispatched. -/
def tableConfig : Config where
  opc := defaultOpc
  extAluOpcodes := true

/-- The arity of a mnemonic, looked up and not computed from opcode bits (R80, R83, R88). -/
def Mnemonic.arity : Mnemonic → Nat
  | .HLT | .RET => 0
  | .PRN | .PUSH | .POP | .CALL | .JMP | .JEQ | .JNE | .JLT | .JGT | .JGE => 1
  | .LDI | .MUL | .ADD | .CMP | .SUB | .DIV | .MOD | .AND | .XOR => 2

/-- `decode(ir)` of R84: the dispatched mnemonic whose opcode byte is `ir`, if there is one. -/
def Config.lookup (cfg : Config) (ir : Byte) : Option Mnemonic :=
  Mnemonic.all.find? fun m => cfg.dispatches m && cfg.opc.byte m == ir

/-- The instruction of a mnemonic with the operand bytes of the window; unused ones are ignored (R83, R96). -/
def Mnemonic.instr (opa opb : Byte) : Mnemonic → Instr
  | .HLT => .hlt
  | .LDI => .ldi opa opb
  | .PRN => .prn opa
  | .MUL => .mul opa opb
  | .ADD => .add opa opb
  | .CMP => .cmp opa opb
  | .PUSH => .push opa
  | .POP => .pop opa
  | .CALL => .call opa
  | .RET => .ret
  | .JMP => .jmp opa
  | .JEQ => .jeq opa
  | .JNE => .jne opa
  | .JLT => .jlt opa
  | .JGT => .jgt opa
  | .JGE => .jge opa
  | .SUB => .sub opa opb
  | .DIV => .div opa opb
  | .MOD => .mod opa opb
  | .AND => .and opa opb
  | .XOR => .xor opa opb

/-- Why the decoder rejects a window: the opcode byte is `unknown` (R84, R89). -/
inductive DecodeReject where
  | unknownInstruction (ir : Byte)
  deriving DecidableEq, Repr

/-- The decoder, total on every window of three bytes (R84, R96). -/
def decode (cfg : Config) (ir opa opb : Byte) : Except DecodeReject Instr :=
  match cfg.lookup ir with
  | some m => .ok (m.instr opa opb)
  | none => .error (.unknownInstruction ir)

/-- The bytes of an instruction, at rising addresses: opcode, then its operand bytes (R81, R93). -/
def encode (cfg : Config) (i : Instr) : List Byte :=
  cfg.opc.byte i.mnemonic :: i.operands

/-- Byte `k` of a table word: bits `8k+7 .. 8k`, the bits from `nbits` up being 0. -/
def tableByte (nbits w k : Nat) : Byte :=
  BitVec.ofNat 8 (w % 2 ^ nbits / 256 ^ k)

/-- The instruction the decoder reads from a word of spec/opcode_table.json, whose rows are the default `OPC` with the
optional five among them (log 3). -/
def decodeTableWord (nbits w : Nat) : Option Instr :=
  match decode tableConfig (tableByte nbits w 0) (tableByte nbits w 1) (tableByte nbits w 2) with
  | .ok i => some i
  | .error _ => none

/-- The configuration under which the opcode byte `ir` is dispatched: EXT_ALU_OPCODES is turned on where only that
makes `ir` an instruction, and nothing else changes (log 3). -/
def Config.enabling (cfg : Config) (ir : Byte) : Config :=
  match cfg.lookup ir, Config.lookup { cfg with extAluOpcodes := true } ir with
  | none, some _ => { cfg with extAluOpcodes := true }
  | none, none => cfg
  | some _, _ => cfg

/-- The assembler notation of R93, for writing programs down. -/
def Instr.text : Instr → String
  | .hlt => "HLT"
  | .ldi a v => "LDI R" ++ toString a.toNat ++ "," ++ toString v.toNat
  | .prn a => "PRN R" ++ toString a.toNat
  | .mul a b => "MUL R" ++ toString a.toNat ++ ",R" ++ toString b.toNat
  | .add a b => "ADD R" ++ toString a.toNat ++ ",R" ++ toString b.toNat
  | .cmp a b => "CMP R" ++ toString a.toNat ++ ",R" ++ toString b.toNat
  | .push a => "PUSH R" ++ toString a.toNat
  | .pop a => "POP R" ++ toString a.toNat
  | .call a => "CALL R" ++ toString a.toNat
  | .ret => "RET"
  | .jmp a => "JMP R" ++ toString a.toNat
  | .jeq a => "JEQ R" ++ toString a.toNat
  | .jne a => "JNE R" ++ toString a.toNat
  | .jlt a => "JLT R" ++ toString a.toNat
  | .jgt a => "JGT R" ++ toString a.toNat
  | .jge a => "JGE R" ++ toString a.toNat
  | .sub a b => "SUB R" ++ toString a.toNat ++ ",R" ++ toString b.toNat
  | .div a b => "DIV R" ++ toString a.toNat ++ ",R" ++ toString b.toNat
  | .mod a b => "MOD R" ++ toString a.toNat ++ ",R" ++ toString b.toNat
  | .and a b => "AND R" ++ toString a.toNat ++ ",R" ++ toString b.toNat
  | .xor a b => "XOR R" ++ toString a.toNat ++ ",R" ++ toString b.toNat

end Sys2Proof
end

