-- ==== Sys2Proof/Machine/State.lean ====
section
/-! DEFINITION. The state of the machine (spec 10_state.md R20), what a `raise` carries (60_exceptions.md R201), the
reasons a step can stop, and the state after reset (10_state.md R38; 70_reset_and_hazards.md R240). -/

namespace Sys2Proof.Machine

/-- The three comparison flags, one bit each (R29). -/
structure Flags where
  /-- Equal. -/
  E : Bool
  /-- Greater-than. -/
  G : Bool
  /-- Less-than. -/
  L : Bool
  deriving DecidableEq, Repr

/-- The kinds the FAULT latch can hold (R33, R201). -/
inductive FaultKind where
  /-- `None`: no fault has occurred. -/
  | noFault
  | outOfBounds
  | divisionByZero
  /-- No step raises it (R205; log 21). -/
  | unsupportedOperation
  | unknownInstruction
  | stackOverflow
  | stackUnderflow
  deriving DecidableEq, Repr

/-- The space of an OutOfBounds fault (R201). -/
inductive Space where
  | MEM
  | REG
  deriving DecidableEq, Repr

/-- The `info` a fault records (R201; log 18). -/
inductive FaultDetail where
  /-- Nothing beyond the kind (UnsupportedOperation). -/
  | nothing
  /-- OutOfBounds: the space and the address or index. -/
  | location (space : Space) (n : Nat)
  /-- DivisionByZero: the dividend. -/
  | dividend (a : Byte)
  /-- UnknownInstruction: the opcode byte. -/
  | opcode (ir : Byte)
  /-- StackOverflow and StackUnderflow: the SP value. -/
  | stackPointer (sp : Byte)
  deriving DecidableEq, Repr

/-- The content of FAULT_INFO: the info and the `pc` of the faulting instruction (R33, R200). -/
structure FaultRecord where
  detail : FaultDetail
  pc : Pc
  deriving DecidableEq, Repr

/-- A `raise K(info)` of the pseudocode (R11, R201). It is no stop of the model: it is taken, by `State.raise`. -/
inductive Raise where
  /-- OutOfBounds of space MEM (R10, R202). -/
  | memOutOfBounds (address : Nat)
  /-- OutOfBounds of space REG (R9, R203). -/
  | regOutOfBounds (index : Nat)
  /-- DivisionByZero with the dividend (R204). -/
  | divisionByZero (a : Byte)
  /-- UnsupportedOperation: the kind exists, no rule raises it (R148, R205). -/
  | unsupportedOperation
  /-- UnknownInstruction with the opcode byte (R206). -/
  | unknownInstruction (ir : Byte)
  /-- StackOverflow with the SP value (R207). -/
  | stackOverflow (sp : Byte)
  /-- StackUnderflow with the value about to be incremented (R208). -/
  | stackUnderflow (sp : Byte)
  deriving DecidableEq, Repr

/-- The complete state (R20), and the configuration it runs under (R37; log 1). Memory is a list of (address, byte)
pairs, addresses strictly rising and below 256, no entry equal to what an unlisted address reads as. -/
structure State where
  /-- OPC and EXT_ALU_OPCODES: configuration, which no step changes (R5, R37). -/
  cfg : Config
  /-- `x[0]` to `x[7]`; `x[7]` is SP (R21, R23). -/
  regs : Vector Byte 8
  /-- The program counter, 0 to 256 (R25, R27). -/
  pc : Pc
  /-- `E`, `G`, `L` (R29). -/
  flags : Flags
  /-- The Halted bit (R32). -/
  halted : Bool
  /-- The FAULT latch (R33). -/
  fault : FaultKind
  /-- FAULT_INFO (R33). -/
  faultInfo : Option FaultRecord
  /-- `M[0]` to `M[255]` (R34). -/
  mem : List Host.Cell
  /-- `OUT`, oldest first (R35). -/
  out : List Byte
  deriving DecidableEq, Repr

/-- Why the model's step answers no next state (R107). -/
inductive Fault where
  /-- Raised by `step` alone, in a Halted state: the engine takes no step (R107). Safe: the machine stops too. -/
  | halted
  /-- Raised by `step` alone, in a Faulted state: the engine takes no step (R107). Safe: the machine stops too. -/
  | faulted
  deriving DecidableEq, Repr

/-- Instructions without a meaning. -/
inductive Refusal where
  /-- An instruction the model gives no meaning, by its mnemonic. No arm of `exec` answers it. Safe. -/
  | notModelled (mnemonic : String)
  deriving DecidableEq, Repr

/-- The state right after reset (R38, R240), under the default configuration (R5): x[0] to x[6] at 0x00 (log 4),
SP 0xF4, pc 0, flags 0, not halted, FAULT None, FAULT_INFO empty, every cell 0x00, OUT empty. -/
def State.reset : State where
  cfg := defaultConfig
  regs := #v[regReset, regReset, regReset, regReset, regReset, regReset, regReset, spReset]
  pc := pcReset
  flags := { E := false, G := false, L := false }
  halted := false
  fault := .noFault
  faultInfo := none
  mem := []
  out := []

end Sys2Proof.Machine
end

