-- ==== Sys2Proof/Machine/Flags.lean ====
section
/-! DEFINITION. The flags: the comparison that computes them (spec 42_alu.md R138, R139), the conditions that read
them (45_branch.md R181 to R185), and the packed view (10_state.md R31). -/

namespace Sys2Proof.Machine

/-- `alu(CMP, a, b)`: the new `(E, G, L)`, unsigned, each flag tested by itself (R138, R139; log 14). -/
def compareFlags (a b : Byte) : Flags where
  E := decide (a.toNat = b.toNat)
  G := decide (a.toNat > b.toNat)
  L := decide (a.toNat < b.toNat)

/-- JEQ is taken when `E = 1` (R181). -/
def Flags.takesJeq (f : Flags) : Bool := f.E

/-- JNE is taken when `E = 0`, which is not `G or L` before any CMP (R182). -/
def Flags.takesJne (f : Flags) : Bool := !f.E

/-- JLT is taken when `L = 1` (R183). -/
def Flags.takesJlt (f : Flags) : Bool := f.L

/-- JGT is taken when `G = 1` (R184). -/
def Flags.takesJgt (f : Flags) : Bool := f.G

/-- JGE is taken when `G = 1` or `E = 1` (R185). -/
def Flags.takesJge (f : Flags) : Bool := f.G || f.E

/-- The packed view `FL = 0b00000 ++ L ++ G ++ E`, which no instruction can observe (R31; log 16). -/
def Flags.packed (f : Flags) : Byte :=
  (if f.L then 0x04 else 0x00) ||| (if f.G then 0x02 else 0x00) ||| (if f.E then 0x01 else 0x00)

/-- At most one flag is set (R29, R39). -/
def Flags.atMostOne (f : Flags) : Bool :=
  !(f.E && f.G) && !(f.E && f.L) && !(f.G && f.L)

end Sys2Proof.Machine
end

