-- ==== Sys2Proof/Machine/Ops.lean ====
section
/-! DEFINITION. The named operations of the machine: memory, registers, the stack pointer, the program counter, the
output port, the fetch, and the one operation that takes a fault (spec 00_scope.md R9 to R12; 20_memory.md;
60_exceptions.md R200, R211). There is no return from a fault (R212). -/

namespace Sys2Proof.Machine

/-- What one step or one meaning answers. -/
abbrev Result := Host.Outcome State Fault Refusal

/-! ### Memory -/

/-- What a cell that nothing has written or loaded reads as (R34; log 5). -/
def unlistedByte : Byte := 0x00

/-- The content of cell `a` (R10). -/
def Memory.read : List Host.Cell → Nat → Byte
  | [], _ => unlistedByte
  | (k, v) :: m, a => if k = a then v else Memory.read m a

/-- Set cell `a` to `v`, keeping the canonical form (R10). -/
def Memory.write : List Host.Cell → Nat → Byte → List Host.Cell
  | [], a, v => if v = unlistedByte then [] else [(a, v)]
  | (k, w) :: m, a, v =>
    if a < k then
      if v = unlistedByte then (k, w) :: m else (a, v) :: (k, w) :: m
    else if a = k then
      if v = unlistedByte then m else (a, v) :: m
    else (k, w) :: Memory.write m a v

/-- The canonical form: addresses strictly rising and at least `lo`, all in the address space, no cell listed at the
value an unlisted one reads as. -/
def Memory.wfFrom : Nat → List Host.Cell → Bool
  | _, [] => true
  | lo, (k, v) :: m => decide (lo ≤ k) && decide (k < memSize) && decide (v ≠ unlistedByte) && Memory.wfFrom (k + 1) m

/-- Memory is in its canonical form. -/
def Memory.wf (m : List Host.Cell) : Bool :=
  Memory.wfFrom 0 m

/-- Write bytes at rising addresses from `a`, dropping those beyond the address space. -/
def Memory.place : List Host.Cell → Nat → List Byte → List Host.Cell
  | m, _, [] => m
  | m, a, b :: bs => Memory.place (if a < memSize then Memory.write m a b else m) (a + 1) bs

/-- `MemRead(addr, 1)` (R10, R52). -/
def State.memRead (s : State) (a : Nat) : Except Raise Byte :=
  if a < memSize then .ok (Memory.read s.mem a) else .error (.memOutOfBounds a)

/-- `MemWrite(addr, 1, v)` (R10, R52). -/
def State.memWrite (s : State) (a : Nat) (v : Byte) : Except Raise State :=
  if a < memSize then .ok { s with mem := Memory.write s.mem a v } else .error (.memOutOfBounds a)

/-! ### Registers -/

/-- `x[i]` (R9, R22). -/
def State.regRead (s : State) (i : Nat) : Except Raise Byte :=
  if h : i < nreg then .ok s.regs[i] else .error (.regOutOfBounds i)

/-- `x[i] <- v` (R9, R22). No register is hardwired. -/
def State.regWrite (s : State) (i : Nat) (v : Byte) : Except Raise State :=
  if h : i < nreg then .ok { s with regs := s.regs.set i v } else .error (.regOutOfBounds i)

/-- `SP`, another name for `x[7]` (R9, R23). -/
def State.sp (s : State) : Byte :=
  s.regs[spIndex]

/-- The decrement of SP by PUSH and CALL, with its bound check (R163; log 11). -/
def State.spDecrement (s : State) : Except Raise State :=
  if s.sp = 0 then .error (.stackOverflow s.sp) else .ok { s with regs := s.regs.set spIndex (s.sp - 1) }

/-- The increment of SP by POP and RET, with its bound check (R163; log 11). -/
def State.spIncrement (s : State) : Except Raise State :=
  if s.sp = 255 then .error (.stackUnderflow s.sp) else .ok { s with regs := s.regs.set spIndex (s.sp + 1) }

/-! ### Program counter, flags, Halted, OUT -/

/-- `pc <- pc + k`: no reduction mod 256 (R105; log 6). -/
def State.advance (s : State) (k : Pc) : State :=
  { s with pc := s.pc + k }

/-- `pc <- zext_9(t)` (R11, R187). -/
def State.jumpTo (s : State) (t : Byte) : State :=
  { s with pc := t.setWidth 9 }

/-- The byte CALL pushes, `pc + 2`: at most 255 whenever the fetch succeeded (R171; log 20). -/
def State.returnAddress (s : State) : Byte :=
  BitVec.ofNat 8 (s.pc.toNat + 2)

/-- `(E,G,L) <- f` (R11). -/
def State.setFlags (s : State) (f : Flags) : State :=
  { s with flags := f }

/-- `halted <- true` (R32, R120). -/
def State.halt (s : State) : State :=
  { s with halted := true }

/-- `out(v)`: append to OUT (R11, R35). -/
def State.emit (s : State) (v : Byte) : State :=
  { s with out := s.out ++ [v] }

/-! ### Taking a fault -/

/-- The kind a raise latches (R201). -/
def Raise.kind : Raise → FaultKind
  | .memOutOfBounds _ => .outOfBounds
  | .regOutOfBounds _ => .outOfBounds
  | .divisionByZero _ => .divisionByZero
  | .unsupportedOperation => .unsupportedOperation
  | .unknownInstruction _ => .unknownInstruction
  | .stackOverflow _ => .stackOverflow
  | .stackUnderflow _ => .stackUnderflow

/-- The info a raise records (R201). -/
def Raise.detail : Raise → FaultDetail
  | .memOutOfBounds a => .location .MEM a
  | .regOutOfBounds i => .location .REG i
  | .divisionByZero a => .dividend a
  | .unsupportedOperation => .nothing
  | .unknownInstruction ir => .opcode ir
  | .stackOverflow sp => .stackPointer sp
  | .stackUnderflow sp => .stackPointer sp

/-- `FAULT_CODE` (R201; log 18). -/
def FaultKind.code : FaultKind → Nat
  | .noFault => 0
  | .outOfBounds => 1
  | .divisionByZero => 2
  | .unsupportedOperation => 3
  | .unknownInstruction => 4
  | .stackOverflow => 5
  | .stackUnderflow => 6

/-- TAKING A FAULT, the whole of trap entry here (R200, R211): FAULT and FAULT_INFO are written, with the `pc` of the
instruction, and every other element keeps its value (D11; log 8). -/
def State.raise (s : State) (k : Raise) : State :=
  { s with fault := k.kind, faultInfo := some { detail := k.detail, pc := s.pc } }

/-- The end of a pseudocode block begun in `s` (R12): all its writes together, or, at the first raise, none of them and
the fault taken in `s`. -/
def State.complete (s : State) : Except Raise State → Result
  | .ok t => .next t
  | .error k => .next (s.raise k)

/-! ### Fetch -/

/-- The three bounds-checked reads of R101, made for every opcode (R96): `ir`, `opa`, `opb`. -/
def State.fetch (s : State) : Except Raise (Byte × Byte × Byte) := do
  let ir ← s.memRead s.pc.toNat
  let opa ← s.memRead (s.pc.toNat + 1)
  let opb ← s.memRead (s.pc.toNat + 2)
  pure (ir, opa, opb)

end Sys2Proof.Machine
end

