-- ==== Sys2Proof/Machine/Operands.lean ====
section
/-! DEFINITION. The operand forms (spec 30_encoding.md R82): kind `reg`, where the whole byte is the register index,
and kind `imm8`. There is no other form: no address, offset or displacement operand. -/

namespace Sys2Proof.Machine

/-- Read the register an operand byte names; a byte of 8 or more raises OutOfBounds(REG) here and not before
(R82, R90; log 17). -/
def State.readOperand (s : State) (op : Byte) : Except Raise Byte :=
  s.regRead op.toNat

/-- Write the register an operand byte names (R82). -/
def State.writeOperand (s : State) (op : Byte) (v : Byte) : Except Raise State :=
  s.regWrite op.toNat v

/-- An operand of kind `imm8`: the byte as it is, no extension, scaling or shift (R82). -/
def immediate (op : Byte) : Byte :=
  op

end Sys2Proof.Machine
end

