-- ==== Sys2Proof/Machine/Alu.lean ====
section
/-! DEFINITION. The ALU as a pure function of eight operations and the ALU instructions (spec 42_alu.md). All eight
operations are part of the hardware whether or not the option dispatches their instructions. -/

namespace Sys2Proof.Machine

/-- The closed enumeration of ALU operations (R130, R148). -/
inductive AluOp where
  | ADD | SUB | MUL | MOD | DIV | XOR | AND | CMP
  deriving DecidableEq, Repr

/-- What the ALU produces (R130): a value to store, the new flags, or the DivisionByZero error with its dividend. -/
inductive AluResult where
  | value (r : Byte)
  | flags (f : Flags)
  | divisionByZero (a : Byte)
  deriving DecidableEq, Repr

/-- `alu(op, a, b)` (R131 to R138). -/
def alu : AluOp → Byte → Byte → AluResult
  | .ADD, a, b => .value (a + b)
  | .SUB, a, b => .value (a - b)
  | .MUL, a, b => .value (a * b)
  | .DIV, a, b => if b = 0 then .divisionByZero a else .value (a / b)
  | .MOD, a, b => if b = 0 then .divisionByZero a else .value (a % b)
  | .AND, a, b => .value (a &&& b)
  | .XOR, a, b => .value (a ^^^ b)
  | .CMP, a, b => .flags (compareFlags a b)

/-- The common block of a two-register ALU instruction (R149; R142 for CMP): both reads, then the ALU, then the write
of `x[opa]` or of the flags. -/
def aluBlock (op : AluOp) (opa opb : Byte) (s : State) : Except Raise State := do
  let a ← s.readOperand opa
  let b ← s.readOperand opb
  match alu op a b with
  | .value r => do
    let s ← s.writeOperand opa r
    pure (s.advance 3)
  | .flags f => pure ((s.setFlags f).advance 3)
  | .divisionByZero d => .error (.divisionByZero d)

/-- ADD Ra,Rb (R140). -/
def execAdd (opa opb : Byte) (s : State) : Result :=
  s.complete (aluBlock .ADD opa opb s)

/-- MUL Ra,Rb (R141). -/
def execMul (opa opb : Byte) (s : State) : Result :=
  s.complete (aluBlock .MUL opa opb s)

/-- CMP Ra,Rb (R142). -/
def execCmp (opa opb : Byte) (s : State) : Result :=
  s.complete (aluBlock .CMP opa opb s)

/-- SUB Ra,Rb (R143). -/
def execSub (opa opb : Byte) (s : State) : Result :=
  s.complete (aluBlock .SUB opa opb s)

/-- DIV Ra,Rb (R144). -/
def execDiv (opa opb : Byte) (s : State) : Result :=
  s.complete (aluBlock .DIV opa opb s)

/-- MOD Ra,Rb (R145). -/
def execMod (opa opb : Byte) (s : State) : Result :=
  s.complete (aluBlock .MOD opa opb s)

/-- AND Ra,Rb (R146). -/
def execAnd (opa opb : Byte) (s : State) : Result :=
  s.complete (aluBlock .AND opa opb s)

/-- XOR Ra,Rb (R147). -/
def execXor (opa opb : Byte) (s : State) : Result :=
  s.complete (aluBlock .XOR opa opb s)

end Sys2Proof.Machine
end

