-- ==== Sys2Proof/Machine/Branch.lean ====
section
/-! DEFINITION. JMP and the conditional branches (spec 45_branch.md). A branch that is not taken does not read its
register (R186; log 17). -/

namespace Sys2Proof.Machine

/-- The taken arm: read the register, jump (R180, R187). -/
def jumpBlock (opa : Byte) (s : State) : Except Raise State := do
  let t ← s.readOperand opa
  pure (s.jumpTo t)

/-- The block of a conditional branch (R186, R187). -/
def branchBlock (taken : Bool) (opa : Byte) (s : State) : Except Raise State :=
  if taken then jumpBlock opa s else .ok (s.advance 2)

/-- JMP Ra (R180). -/
def execJmp (opa : Byte) (s : State) : Result :=
  s.complete (jumpBlock opa s)

/-- JEQ Ra (R181). -/
def execJeq (opa : Byte) (s : State) : Result :=
  s.complete (branchBlock s.flags.takesJeq opa s)

/-- JNE Ra (R182). -/
def execJne (opa : Byte) (s : State) : Result :=
  s.complete (branchBlock s.flags.takesJne opa s)

/-- JLT Ra (R183). -/
def execJlt (opa : Byte) (s : State) : Result :=
  s.complete (branchBlock s.flags.takesJlt opa s)

/-- JGT Ra (R184). -/
def execJgt (opa : Byte) (s : State) : Result :=
  s.complete (branchBlock s.flags.takesJgt opa s)

/-- JGE Ra (R185). -/
def execJge (opa : Byte) (s : State) : Result :=
  s.complete (branchBlock s.flags.takesJge opa s)

end Sys2Proof.Machine
end

