-- ==== Sys2Proof/Machine/CallReturn.lean ====
section
/-! DEFINITION. CALL and RET (spec 44_call_return.md). The return address is `pc + 2` (90_conflicts.md C1). -/

namespace Sys2Proof.Machine

/-- The block of CALL (R170): decrement, write the return address at the new SP, read the target, jump. -/
def callBlock (opa : Byte) (s : State) : Except Raise State := do
  let s ← s.spDecrement
  let s ← s.memWrite s.sp.toNat s.returnAddress
  let t ← s.readOperand opa
  pure (s.jumpTo t)

/-- CALL Ra (R170). -/
def execCall (opa : Byte) (s : State) : Result :=
  s.complete (callBlock opa s)

/-- The block of RET (R172): read at SP, increment SP, jump. -/
def retBlock (s : State) : Except Raise State := do
  let t ← s.memRead s.sp.toNat
  let s ← s.spIncrement
  pure (s.jumpTo t)

/-- RET (R172). -/
def execRet (s : State) : Result :=
  s.complete (retBlock s)

end Sys2Proof.Machine
end

