-- ==== Sys2Proof/Machine/HaltMoveOutput.lean ====
section
/-! DEFINITION. HLT, LDI, PRN (spec 41_halt_move_output.md). -/

namespace Sys2Proof.Machine

/-- HLT (R120). -/
def execHlt (s : State) : Result :=
  .next (s.halt.advance 1)

/-- The block of LDI (R121). -/
def ldiBlock (opa imm : Byte) (s : State) : Except Raise State := do
  let s ← s.writeOperand opa (immediate imm)
  pure (s.advance 3)

/-- LDI Ra,imm (R121). -/
def execLdi (opa imm : Byte) (s : State) : Result :=
  s.complete (ldiBlock opa imm s)

/-- The block of PRN (R122). -/
def prnBlock (opa : Byte) (s : State) : Except Raise State := do
  let v ← s.readOperand opa
  pure ((s.emit v).advance 2)

/-- PRN Ra (R122). -/
def execPrn (opa : Byte) (s : State) : Result :=
  s.complete (prnBlock opa s)

end Sys2Proof.Machine
end

