-- ==== Sys2Proof/Machine/Stack.lean ====
section
/-! DEFINITION. PUSH and POP (spec 43_stack.md). Later statements of a block see the earlier writes, which matters when
the operand names register 7 (R12, D17; log 12). -/

namespace Sys2Proof.Machine

/-- The block of PUSH (R160): decrement, read the register, write at the new SP. -/
def pushBlock (opa : Byte) (s : State) : Except Raise State := do
  let s ← s.spDecrement
  let v ← s.readOperand opa
  let s ← s.memWrite s.sp.toNat v
  pure (s.advance 2)

/-- PUSH Ra (R160). -/
def execPush (opa : Byte) (s : State) : Result :=
  s.complete (pushBlock opa s)

/-- The block of POP (R161): read at SP, write the register, then increment register 7 as it then stands. -/
def popBlock (opa : Byte) (s : State) : Except Raise State := do
  let v ← s.memRead s.sp.toNat
  let s ← s.writeOperand opa v
  let s ← s.spIncrement
  pure (s.advance 2)

/-- POP Ra (R161). -/
def execPop (opa : Byte) (s : State) : Result :=
  s.complete (popBlock opa s)

end Sys2Proof.Machine
end

