-- ==== Sys2Proof/Machine/Dispatch.lean ====
section
/-! DEFINITION. The dispatch of R103 and R104: one meaning per instruction. -/

namespace Sys2Proof.Machine

def exec (i : Instr) (s : State) : Host.Outcome State Fault Refusal :=
  match i with
  -- 41_halt_move_output.md
  | .hlt => Sys2Proof.Machine.execHlt s
  | .ldi opa imm => Sys2Proof.Machine.execLdi opa imm s
  | .prn opa => Sys2Proof.Machine.execPrn opa s
  -- 42_alu.md
  | .mul opa opb => Sys2Proof.Machine.execMul opa opb s
  | .add opa opb => Sys2Proof.Machine.execAdd opa opb s
  | .cmp opa opb => Sys2Proof.Machine.execCmp opa opb s
  -- 43_stack.md, 44_call_return.md
  | .push opa => Sys2Proof.Machine.execPush opa s
  | .pop opa => Sys2Proof.Machine.execPop opa s
  | .call opa => Sys2Proof.Machine.execCall opa s
  | .ret => Sys2Proof.Machine.execRet s
  -- 45_branch.md
  | .jmp opa => Sys2Proof.Machine.execJmp opa s
  | .jeq opa => Sys2Proof.Machine.execJeq opa s
  | .jne opa => Sys2Proof.Machine.execJne opa s
  | .jlt opa => Sys2Proof.Machine.execJlt opa s
  | .jgt opa => Sys2Proof.Machine.execJgt opa s
  | .jge opa => Sys2Proof.Machine.execJge opa s
  -- 42_alu.md, option EXT_ALU_OPCODES
  | .sub opa opb => Sys2Proof.Machine.execSub opa opb s
  | .div opa opb => Sys2Proof.Machine.execDiv opa opb s
  | .mod opa opb => Sys2Proof.Machine.execMod opa opb s
  | .and opa opb => Sys2Proof.Machine.execAnd opa opb s
  | .xor opa opb => Sys2Proof.Machine.execXor opa opb s

end Sys2Proof.Machine
end

