-- ==== Sys2Proof/Machine/Step.lean ====
section
/-! DEFINITION. The whole step (spec 40_fetch_decode_execute.md R112) and the placing of one table word where the next
fetch reads it. -/

namespace Sys2Proof.Machine

/-- One step (R112). In a Halted or Faulted state there is none (R107; log 9). The order of checks is R106's: fetch,
then unknown opcode, then the handler. -/
def step (s : State) : Host.Outcome State Fault Refusal :=
  if s.halted then .fault .halted
  else if s.fault ≠ .noFault then .fault .faulted
  else
    match s.fetch with
    | .error k => .next (s.raise k)
    | .ok (ir, opa, opb) =>
      match decode s.cfg ir opa opb with
      | .error (.unknownInstruction b) => .next (s.raise (.unknownInstruction b))
      | .ok i => exec i s

/-- `s` with a word of spec/opcode_table.json at `pc`, `pc+1`, `pc+2`, standing for the load of R242 (log 19), and
EXT_ALU_OPCODES turned on where only that makes its opcode byte an instruction (log 3). -/
def State.withFetchWord (s : State) (nbits w : Nat) : State :=
  { s with
    cfg := s.cfg.enabling (tableByte nbits w 0)
    mem := Memory.place s.mem s.pc.toNat [tableByte nbits w 0, tableByte nbits w 1, tableByte nbits w 2] }

end Sys2Proof.Machine
end

