-- ==== Sys2Proof/Machine/Boundary.lean ====
section
/-! DEFINITION. The interfaces of the block (spec 00_scope.md R7): the reset event (70_reset_and_hazards.md R240), the
load port and the launch state (R242, R243), and what the host reads at the output and status ports (10_state.md R35;
60_exceptions.md R213). Nothing here is part of a step. -/

namespace Sys2Proof.Machine

/-- Reset, from any state: every element at its reset value, nothing kept of the earlier run; the configuration is no
element of the state (R37, R240; log 23). -/
def State.resetEvent (s : State) : State :=
  { State.reset with cfg := s.cfg }

/-- The load port (R242): the image at address 0 upward and nothing else; an image of more than 256 bytes is outside the
launch precondition (log 19). -/
def State.load (s : State) (image : List Byte) : Option State :=
  if imageFits image then some { s with mem := Memory.place s.mem loadBase image } else none

/-- The launch state of a run (R243): reset, then the image. -/
def launch (cfg : Config) (image : List Byte) : Option State :=
  State.load { State.reset with cfg := cfg } image

/-- OUT as the host prints it (R35): each value as a decimal numeral, then the line break `eol`, which the spec leaves to
the host (91_not_in_source.md N25; log 22). -/
def renderOut (eol : String) : List Byte → String
  | [] => ""
  | v :: out => toString v.toNat ++ eol ++ renderOut eol out

/-- The exit status the host gives a finished run, for a map EXIT_STATUS and a success status of the host's
(R5, R213; log 22); none while the run goes on. -/
def hostStatus (exitStatus : FaultKind → Nat) (success : Nat) (s : State) : Option Nat :=
  match s.fault with
  | .noFault => if s.halted then some success else none
  | k => some (exitStatus k)

end Sys2Proof.Machine
end

