-- ==== Sys2Proof/Safety.lean ====
section
/-! DEFINITION. The terms claims use: running and quiescent states, how a run ends (spec 40_fetch_decode_execute.md
R100, R107, R108), the invariant of 10_state.md R39, and the frame relations between the states before and after an
instruction. -/

namespace Sys2Proof.Machine

/-- Running: neither Halted nor Faulted (R100). -/
abbrev State.running (s : State) : Prop :=
  s.halted = false ∧ s.fault = .noFault

/-- Quiescent: Halted or Faulted (R107). -/
abbrev State.quiescent (s : State) : Prop :=
  s.halted = true ∨ s.fault ≠ .noFault

/-- A run that ended normally (R108). -/
abbrev State.endedNormally (s : State) : Prop :=
  s.halted = true ∧ s.fault = .noFault

/-- A run that ended by abort (R108). -/
abbrev State.aborted (s : State) : Prop :=
  s.halted = false ∧ s.fault ≠ .noFault

/-- The latch holds nothing, or a kind with the info of that kind and the `pc` that the fault left in place
(R33, R200, R201). -/
def State.latchConsistent (s : State) : Prop :=
  (s.fault = .noFault ∧ s.faultInfo = none) ∨
    ∃ k : Raise, s.fault = k.kind ∧ s.faultInfo = some { detail := k.detail, pc := s.pc }

/-- The invariant of R39: memory in its canonical form, `pc` at most 256, at most one flag, never both Halted and
Faulted, the latch consistent. -/
structure State.Inv (s : State) : Prop where
  memCanonical : Memory.wf s.mem = true
  pcInRange : s.pc.toNat ≤ 256
  flagsAtMostOne : s.flags.atMostOne = true
  notHaltedAndFaulted : ¬(s.halted = true ∧ s.fault ≠ .noFault)
  latch : s.latchConsistent

/-- `s` with a fault latched: the transition of R200 written out. -/
def State.latched (s : State) (kind : FaultKind) (detail : FaultDetail) : State :=
  { s with fault := kind, faultInfo := some { detail := detail, pc := s.pc } }

/-! ### Frames: what an instruction may change, as the spec tabulates it -/

/-- The registers an instruction writes, by number (the writes column of R22). -/
def regWriteSet : Instr → List Nat
  | .ldi opa _ | .mul opa _ | .add opa _ | .sub opa _ | .div opa _ | .mod opa _ | .and opa _ | .xor opa _ => [opa.toNat]
  | .push _ | .call _ | .ret => [7]
  | .pop opa => [opa.toNat, 7]
  | .hlt | .prn _ | .cmp _ _ | .jmp _ | .jeq _ | .jne _ | .jlt _ | .jgt _ | .jge _ => []

/-- The cells an instruction writes in a state: the new top of the stack for PUSH and CALL (R51, R66). -/
def memWriteSet (i : Instr) (s : State) : List Nat :=
  match i with
  | .push _ | .call _ => [(s.sp - 1).toNat]
  | .hlt | .ldi _ _ | .prn _ | .mul _ _ | .add _ _ | .cmp _ _ | .pop _ | .ret | .jmp _ | .jeq _ | .jne _ | .jlt _
  | .jgt _ | .jge _ | .sub _ _ | .div _ _ | .mod _ _ | .and _ _ | .xor _ _ => []

/-- The content of register `n` of a register file, for `n` below 8. -/
def regOf (regs : Vector Byte 8) (n : Nat) : Byte :=
  (regs[n]?).getD 0

/-- The `pc` after an instruction that does not fault (the table of R26). -/
def pcAfter (i : Instr) (s : State) : Pc :=
  match i with
  | .hlt => s.pc + 1
  | .prn _ | .push _ | .pop _ => s.pc + 2
  | .ldi _ _ | .mul _ _ | .add _ _ | .cmp _ _ | .sub _ _ | .div _ _ | .mod _ _ | .and _ _ | .xor _ _ => s.pc + 3
  | .call opa => (regOf (s.regs.set 7 (s.sp - 1)) opa.toNat).setWidth 9
  | .ret => (Memory.read s.mem s.sp.toNat).setWidth 9
  | .jmp opa => (regOf s.regs opa.toNat).setWidth 9
  | .jeq opa => if s.flags.E then (regOf s.regs opa.toNat).setWidth 9 else s.pc + 2
  | .jne opa => if s.flags.E then s.pc + 2 else (regOf s.regs opa.toNat).setWidth 9
  | .jlt opa => if s.flags.L then (regOf s.regs opa.toNat).setWidth 9 else s.pc + 2
  | .jgt opa => if s.flags.G then (regOf s.regs opa.toNat).setWidth 9 else s.pc + 2
  | .jge opa => if s.flags.G || s.flags.E then (regOf s.regs opa.toNat).setWidth 9 else s.pc + 2

/-- Every register but those of `ws` is as before. -/
def sameRegsExcept (ws : List Nat) (s t : State) : Prop :=
  ∀ r : Fin 8, r.val ∉ ws → t.regs[r] = s.regs[r]

/-- Every cell but those of `addrs` reads as before. -/
def sameMemExcept (addrs : List Nat) (s t : State) : Prop :=
  ∀ a : Nat, a ∉ addrs → Memory.read t.mem a = Memory.read s.mem a

end Sys2Proof.Machine
end

