-- ==== Sys2Proof/Certificates/Slice0/Obligations.lean ====
section
/-! DEFINITION. The statements for the provers. Each docstring names the rule of the spec it formalises, or, where a
clause rests on a decision or inference the spec marks as its own, that decision (92_eei_decisions.md). -/

open Sys2Proof Sys2Proof.Machine

/-! ### Encoding and decoding -/

/-- One window for each of the 21 instructions, written out from 30_encoding.md R81, R86, R88, decodes to it. The byte
values are the default OPC, which the spec marks as general knowledge (D1; log 2: PRESUMED). -/
def Obligations.DefaultOpcodeWordsDecode : Prop :=
  decode defaultConfig 0b00000001 0xFF 0xFF = .ok .hlt ∧
  decode defaultConfig 0b10000010 0x00 0x08 = .ok (.ldi 0 8) ∧
  decode defaultConfig 0b01000111 0x06 0x00 = .ok (.prn 6) ∧
  decode defaultConfig 0b10100010 0x00 0x01 = .ok (.mul 0 1) ∧
  decode defaultConfig 0b10100000 0x03 0x04 = .ok (.add 3 4) ∧
  decode defaultConfig 0b10100111 0x02 0x02 = .ok (.cmp 2 2) ∧
  decode defaultConfig 0b01000101 0x07 0x00 = .ok (.push 7) ∧
  decode defaultConfig 0b01000110 0x05 0x00 = .ok (.pop 5) ∧
  decode defaultConfig 0b01010000 0x01 0x00 = .ok (.call 1) ∧
  decode defaultConfig 0b00010001 0x00 0x00 = .ok .ret ∧
  decode defaultConfig 0b01010100 0x02 0x00 = .ok (.jmp 2) ∧
  decode defaultConfig 0b01010101 0x03 0x00 = .ok (.jeq 3) ∧
  decode defaultConfig 0b01010110 0x04 0x00 = .ok (.jne 4) ∧
  decode defaultConfig 0b01011000 0x05 0x00 = .ok (.jlt 5) ∧
  decode defaultConfig 0b01010111 0x06 0x00 = .ok (.jgt 6) ∧
  decode defaultConfig 0b01011010 0x02 0x00 = .ok (.jge 2) ∧
  decode tableConfig 0b10100001 0x02 0x03 = .ok (.sub 2 3) ∧
  decode tableConfig 0b10100011 0x00 0x01 = .ok (.div 0 1) ∧
  decode tableConfig 0b10100100 0x01 0x00 = .ok (.mod 1 0) ∧
  decode tableConfig 0b10101000 0x04 0x05 = .ok (.and 4 5) ∧
  decode tableConfig 0b10101011 0x00 0x01 = .ok (.xor 0 1)

/-- The default OPC is legal with the option off and on (R86 last sentence, R88); exactly 16 of the 256 bytes are then
instructions, and 21 with EXT_ALU_OPCODES (95_test_vectors.md section 2.6). Default bytes: D1, log 2 (PRESUMED). -/
def Obligations.DefaultMapsDecodeSixteenOrTwentyOneBytes : Prop :=
  defaultConfig.legal = true ∧ tableConfig.legal = true ∧
  ((List.range 256).countP fun b => (defaultConfig.lookup (BitVec.ofNat 8 b)).isSome) = 16 ∧
  ((List.range 256).countP fun b => (tableConfig.lookup (BitVec.ofNat 8 b)).isSome) = 21

/-- R84: decoding is a lookup on the whole opcode byte. Total; a dispatched mnemonic's byte decodes to that mnemonic
whatever the operand bytes; a byte of no dispatched mnemonic is unknown; the dispatched mnemonics are the 16, and the 5
of R88 exactly when EXT_ALU_OPCODES is true. For every legal OPC. -/
def Obligations.DecodingIsLookupOfOpcodeByte : Prop :=
  ∀ (cfg : Config), cfg.legal = true →
    (∀ (m : Mnemonic) (opa opb : Byte), cfg.dispatches m = true →
      decode cfg (cfg.opc.byte m) opa opb = .ok (m.instr opa opb)) ∧
    (∀ ir opa opb : Byte, (∀ m, cfg.dispatches m = true → cfg.opc.byte m ≠ ir) →
      decode cfg ir opa opb = .error (.unknownInstruction ir)) ∧
    (∀ m, cfg.dispatches m = true ↔
      (m ∉ [Mnemonic.SUB, .DIV, .MOD, .AND, .XOR] ∨ cfg.extAluOpcodes = true))

/-- R85 (c) with R84: byte 0x00 decodes as unknown under every legal OPC, the option on or off. -/
def Obligations.ZeroByteIsNoInstruction : Prop :=
  ∀ (cfg : Config) (opa opb : Byte), cfg.legal = true → decode cfg 0x00 opa opb = .error (.unknownInstruction 0x00)

/-- An operand byte beyond the arity has no influence on what is decoded (R96). -/
def Obligations.UnusedOperandBytesAreIgnored : Prop :=
  ∀ (cfg : Config) (ir a a' b b' : Byte) (m : Mnemonic), cfg.lookup ir = some m →
    (m.arity = 0 → decode cfg ir a b = decode cfg ir a' b') ∧
    (m.arity = 1 → decode cfg ir a b = decode cfg ir a b')

/-- Decode after encode: for every legal OPC and every instruction it dispatches, with every operand byte, a fetch
window that begins with the instruction's bytes decodes to it. -/
def Obligations.DecodeOfEncodeIsIdentity : Prop :=
  ∀ (cfg : Config) (i : Instr) (ir opa opb : Byte), cfg.legal = true → i.wellFormed cfg = true →
    encode cfg i <+: [ir, opa, opb] → decode cfg ir opa opb = .ok i

/-- Encode after decode: what a window decodes to is dispatched, its encoding is the beginning of the window, and that
encoding is `1 + arity` bytes long. For every OPC, legal or not. -/
def Obligations.EncodeOfDecodeIsWindowPrefix : Prop :=
  ∀ (cfg : Config) (i : Instr) (ir opa opb : Byte), decode cfg ir opa opb = .ok i →
    i.wellFormed cfg = true ∧ encode cfg i <+: [ir, opa, opb] ∧ (encode cfg i).length = 1 + i.mnemonic.arity

/-! ### The step -/

/-- R112's last case: when the three bytes at `pc` are in memory and decode to `i`, a running machine's step is the
instruction, with nothing added before or after it. -/
def Obligations.StepRunsDecodedInstruction : Prop :=
  ∀ (s : State) (i : Instr), s.running → s.pc.toNat + 2 < 256 →
    decode s.cfg (Memory.read s.mem s.pc.toNat) (Memory.read s.mem (s.pc.toNat + 1))
      (Memory.read s.mem (s.pc.toNat + 2)) = .ok i →
    step s = exec i s

/-- An instruction's encoding, placed anywhere at or below address 253, is what runs when `pc` is there, whatever bytes
follow it. For every legal OPC. -/
def Obligations.PlacedEncodingIsWhatRuns : Prop :=
  ∀ (s : State) (i : Instr), s.running → s.cfg.legal = true → i.wellFormed s.cfg = true → s.pc.toNat ≤ 253 →
    (∀ (k : Nat) (b : Byte), (encode s.cfg i)[k]? = some b → Memory.read s.mem (s.pc.toNat + k) = b) →
    step s = exec i s

/-- R103: after a successful fetch an unknown byte raises UnknownInstruction with that byte and is never skipped; a
recognised one runs its handler with the fetched bytes and never raises UnknownInstruction. -/
def Obligations.DispatchRaisesOnlyOnTrueMiss : Prop :=
  ∀ (s : State), s.running → s.pc.toNat + 2 < 256 →
    (s.cfg.lookup (Memory.read s.mem s.pc.toNat) = none →
      step s = .next (s.latched .unknownInstruction (.opcode (Memory.read s.mem s.pc.toNat)))) ∧
    (∀ m, s.cfg.lookup (Memory.read s.mem s.pc.toNat) = some m →
      step s = exec (m.instr (Memory.read s.mem (s.pc.toNat + 1)) (Memory.read s.mem (s.pc.toNat + 2))) s ∧
      ∀ t, step s = .next t → t.fault ≠ .unknownInstruction)

/-- A step from `pc` at 254, 255 or 256 faults in its fetch with OutOfBounds(MEM, 256), whatever the bytes (R102, which
the spec derives, D5; log 7). -/
def Obligations.FetchAtTopOfMemoryFaults : Prop :=
  ∀ (s : State), s.running → 254 ≤ s.pc.toNat → s.pc.toNat ≤ 256 →
    step s = .next (s.latched .outOfBounds (.location .MEM 256))

/-- R107: a state has a step exactly when it is neither Halted nor Faulted, and the step that executes HLT is completed
in full, its `pc` update included, before the engine stops. -/
def Obligations.QuiescentStatesHaveNoStep : Prop :=
  (∀ s : State, (∃ t, step s = .next t) ↔ (s.halted = false ∧ s.fault = .noFault)) ∧
  (∀ s : State, s.halted = false → s.fault = .noFault → ∃ t, exec .hlt s = .next t ∧
    t = { s with halted := true, pc := s.pc + 1 } ∧ ∀ u, step t ≠ .next u)

/-! ### Registers and memory -/

/-- R9: `x[i]` and `x[i] <- v` for an index below 8 read and write that register, register 7 included and none
hardwired; an index of 8 or more raises OutOfBounds(REG, i). -/
def Obligations.RegisterAccessIsCheckedAndPlain : Prop :=
  ∀ (s : State) (i : Nat) (v : Byte),
    (∀ h : i < 8, s.regRead i = .ok s.regs[i] ∧ ∃ t, s.regWrite i v = .ok t ∧ t.regRead i = .ok v ∧
      sameRegsExcept [i] s t ∧ t = { s with regs := t.regs }) ∧
    (8 ≤ i → s.regRead i = .error (.regOutOfBounds i) ∧ s.regWrite i v = .error (.regOutOfBounds i)) ∧
    s.regRead 7 = .ok s.sp

/-- R10: `MemRead` and `MemWrite` of one byte below 256 read and write that cell alone; an address of 256 or more raises
OutOfBounds(MEM, addr). -/
def Obligations.MemoryAccessIsCheckedAndPlain : Prop :=
  ∀ (s : State) (a : Nat) (v : Byte), Memory.wf s.mem = true →
    (a < 256 → s.memRead a = .ok (Memory.read s.mem a) ∧ ∃ t, s.memWrite a v = .ok t ∧ t.memRead a = .ok v ∧
      sameMemExcept [a] s t ∧ t = { s with mem := t.mem }) ∧
    (256 ≤ a → s.memRead a = .error (.memOutOfBounds a) ∧ s.memWrite a v = .error (.memOutOfBounds a))

/-! ### Reset and launch -/

/-- The state after a reset from any state (R38, R240). The zeros of x[0] to x[6] are the spec's own decision D10
(log 4: DESIGN CHOICE), and reset as an event is D21 (log 23). -/
def Obligations.ResetGivesTabulatedValues : Prop :=
  ∀ (s t : State), t ∈ [State.reset, s.resetEvent] →
    (∀ r : Fin 8, t.regs[r] = if r.val = 7 then 0xF4 else 0x00) ∧ t.pc = 0 ∧
    t.flags = { E := false, G := false, L := false } ∧ t.halted = false ∧ t.fault = .noFault ∧ t.faultInfo = none ∧
    (∀ a, Memory.read t.mem a = 0x00) ∧ t.out = []

/-- The load port (R242, D21; log 19): an image of at most 256 bytes ends at cells 0 to n-1 and changes nothing else of
the reset state; a longer one is outside the launch precondition. -/
def Obligations.LaunchPlacesImageFromZero : Prop :=
  ∀ (cfg : Config) (image : List Byte),
    (image.length ≤ 256 → ∃ t, launch cfg image = some t ∧
      (∀ a, Memory.read t.mem a = (image[a]?).getD 0x00) ∧ t = { State.reset with cfg := cfg, mem := t.mem }) ∧
    (256 < image.length → launch cfg image = none)

/-! ### The ALU -/

/-- R131, R132, R133: ADD, SUB and MUL are the exact results modulo 256, SUB spelled as the non-negative residue. -/
def Obligations.AluAddSubMulWrapModulo256 : Prop :=
  ∀ a b : Byte,
    (∃ r, alu .ADD a b = .value r ∧ r.toNat = (a.toNat + b.toNat) % 256) ∧
    (∃ r, alu .SUB a b = .value r ∧ r.toNat = if b.toNat ≤ a.toNat then a.toNat - b.toNat else a.toNat + 256 - b.toNat) ∧
    (∃ r, alu .MUL a b = .value r ∧ r.toNat = (a.toNat * b.toNat) % 256)

/-- DIV and MOD (R134, R135; the quotient is the spec's decision D14; log 13): the error on divisor 0 with the dividend,
else the unsigned quotient, at most `a`, and the remainder below `b`, with `q * b + r = a`. -/
def Obligations.AluDivModAreQuotientAndRemainder : Prop :=
  ∀ a b : Byte,
    (b = 0 → alu .DIV a b = .divisionByZero a ∧ alu .MOD a b = .divisionByZero a) ∧
    (b ≠ 0 → ∃ q r, alu .DIV a b = .value q ∧ alu .MOD a b = .value r ∧ q.toNat = a.toNat / b.toNat ∧
      q.toNat ≤ a.toNat ∧ r.toNat < b.toNat ∧ q.toNat * b.toNat + r.toNat = a.toNat)

/-- R136, R137: AND and XOR bit by bit. -/
def Obligations.AluAndXorAreBitwise : Prop :=
  ∀ (a b : Byte) (i : Nat), i < 8 →
    (∃ r, alu .AND a b = .value r ∧ r.getLsbD i = (a.getLsbD i && b.getLsbD i)) ∧
    (∃ r, alu .XOR a b = .value r ∧ r.getLsbD i = (a.getLsbD i != b.getLsbD i))

/-- After any CMP exactly one flag is 1, each of the three is reachable, and it is the one of the unsigned comparison
(R138, R139; unsigned is D27; log 14). -/
def Obligations.ComparisonSetsExactlyOneFlag : Prop :=
  (∀ a b : Byte, ∃ f, alu .CMP a b = .flags f ∧
    (f.E = true ↔ a.toNat = b.toNat) ∧ (f.G = true ↔ b.toNat < a.toNat) ∧ (f.L = true ↔ a.toNat < b.toNat) ∧
    f ∈ [{ E := true, G := false, L := false }, { E := false, G := true, L := false },
      { E := false, G := false, L := true }]) ∧
  (∀ f : Flags, f ∈ [{ E := true, G := false, L := false }, { E := false, G := true, L := false },
    { E := false, G := false, L := true }] → ∃ a b : Byte, alu .CMP a b = .flags f)

/-- The packed view of the flags (R31, D8; log 16: PRESUMED; no instruction observes it): three different single bits,
bits 7 to 3 zero. -/
def Obligations.PackedFlagsUseThreeDistinctBits : Prop :=
  ∀ f : Flags, f.packed.getLsbD 0 = f.E ∧ f.packed.getLsbD 1 = f.G ∧ f.packed.getLsbD 2 = f.L ∧ f.packed.toNat < 8

/-! ### HLT, LDI, PRN -/

/-- R120: HLT sets Halted and ends one past its byte, changes nothing else, raises nothing, and no step follows; it is
the only way to end a run without a fault, and never from 254 or above. -/
def Obligations.HltHaltsAndAdvancesByOne : Prop :=
  ∀ s : State, encode s.cfg .hlt = [s.cfg.opc.hlt] ∧
    exec .hlt s = .next { s with halted := true, pc := s.pc + 1 } ∧
    (∀ u : State, step { s with halted := true, pc := s.pc + 1 } ≠ .next u) ∧
    (∀ t : State, step s = .next t → t.endedNormally → s.pc.toNat ≤ 253 ∧
      decode s.cfg (Memory.read s.mem s.pc.toNat) (Memory.read s.mem (s.pc.toNat + 1))
        (Memory.read s.mem (s.pc.toNat + 2)) = .ok .hlt ∧ t = { s with halted := true, pc := s.pc + 1 })

/-- R121: LDI writes the immediate to its register and advances by 3, changing nothing else; an operand byte of 8 or
more raises OutOfBounds(REG) and writes nothing; a PRN of the same register then reproduces the immediate. -/
def Obligations.LdiLoadsImmediate : Prop :=
  ∀ (opa imm : Byte) (s : State), encode s.cfg (.ldi opa imm) = [s.cfg.opc.ldi, opa, imm] ∧
    (∀ h : opa.toNat < 8, ∃ t, exec (.ldi opa imm) s = .next t ∧
      t = { s with regs := s.regs.set opa.toNat imm, pc := s.pc + 3 } ∧
      exec (.prn opa) t = .next { t with out := t.out ++ [imm], pc := t.pc + 2 }) ∧
    (8 ≤ opa.toNat → exec (.ldi opa imm) s = .next (s.latched .outOfBounds (.location .REG opa.toNat)))

/-- R122: PRN appends the register's value to OUT and advances by 2, changing nothing else; an operand byte of 8 or more
raises OutOfBounds(REG) and nothing is emitted. -/
def Obligations.PrnAppendsRegisterToOut : Prop :=
  ∀ (opa : Byte) (s : State), encode s.cfg (.prn opa) = [s.cfg.opc.prn, opa] ∧
    (∀ h : opa.toNat < 8, exec (.prn opa) s = .next { s with out := s.out ++ [s.regs[opa.toNat]], pc := s.pc + 2 }) ∧
    (8 ≤ opa.toNat → exec (.prn opa) s = .next (s.latched .outOfBounds (.location .REG opa.toNat)))

/-! ### The ALU instructions -/

/-- R140, R141: ADD and MUL write the sum and the product modulo 256 to `x[opa]`, both operands read first, advance by 3
and change nothing else; the operands are checked `opa` first. -/
def Obligations.AddAndMulWriteWrappedResult : Prop :=
  ∀ (opa opb : Byte) (s : State),
    encode s.cfg (.add opa opb) = [s.cfg.opc.add, opa, opb] ∧ encode s.cfg (.mul opa opb) = [s.cfg.opc.mul, opa, opb] ∧
    (∀ (ha : opa.toNat < 8) (hb : opb.toNat < 8),
      exec (.add opa opb) s = .next { s with
        regs := s.regs.set opa.toNat (BitVec.ofNat 8 ((s.regs[opa.toNat].toNat + s.regs[opb.toNat].toNat) % 256))
        pc := s.pc + 3 } ∧
      exec (.mul opa opb) s = .next { s with
        regs := s.regs.set opa.toNat (BitVec.ofNat 8 (s.regs[opa.toNat].toNat * s.regs[opb.toNat].toNat % 256))
        pc := s.pc + 3 }) ∧
    (∀ i ∈ [Instr.add opa opb, .mul opa opb],
      (8 ≤ opa.toNat → exec i s = .next (s.latched .outOfBounds (.location .REG opa.toNat))) ∧
      (opa.toNat < 8 → 8 ≤ opb.toNat → exec i s = .next (s.latched .outOfBounds (.location .REG opb.toNat))))

/-- CMP (R142; that the comparison is unsigned is the spec's own decision D27, log 14) writes all three flags from the
comparison of its registers, advances by 3 and changes nothing else;
on a bad operand, checked `opa` first, the flags keep their values. -/
def Obligations.CmpWritesFlagsOnly : Prop :=
  ∀ (opa opb : Byte) (s : State), encode s.cfg (.cmp opa opb) = [s.cfg.opc.cmp, opa, opb] ∧
    (∀ (ha : opa.toNat < 8) (hb : opb.toNat < 8), ∃ f : Flags,
      exec (.cmp opa opb) s = .next { s with flags := f, pc := s.pc + 3 } ∧
      (s.regs[opa.toNat].toNat = s.regs[opb.toNat].toNat → f = { E := true, G := false, L := false }) ∧
      (s.regs[opb.toNat].toNat < s.regs[opa.toNat].toNat → f = { E := false, G := true, L := false }) ∧
      (s.regs[opa.toNat].toNat < s.regs[opb.toNat].toNat → f = { E := false, G := false, L := true })) ∧
    (8 ≤ opa.toNat → exec (.cmp opa opb) s = .next (s.latched .outOfBounds (.location .REG opa.toNat))) ∧
    (opa.toNat < 8 → 8 ≤ opb.toNat → exec (.cmp opa opb) s = .next (s.latched .outOfBounds (.location .REG opb.toNat)))

/-- SUB, AND and XOR (R143, R146, R147: the spec's own addition, D2; log 3): the result to `x[opa]`, advance by 3,
nothing else; the operands are checked `opa` first. -/
def Obligations.SubAndXorWriteResult : Prop :=
  ∀ (opa opb : Byte) (s : State),
    (∀ (ha : opa.toNat < 8) (hb : opb.toNat < 8),
      exec (.sub opa opb) s = .next { s with
        regs := s.regs.set opa.toNat (BitVec.ofNat 8 ((s.regs[opa.toNat].toNat + 256 - s.regs[opb.toNat].toNat) % 256))
        pc := s.pc + 3 } ∧
      exec (.and opa opb) s = .next { s with
        regs := s.regs.set opa.toNat (s.regs[opa.toNat] &&& s.regs[opb.toNat]), pc := s.pc + 3 } ∧
      exec (.xor opa opb) s = .next { s with
        regs := s.regs.set opa.toNat (s.regs[opa.toNat] ^^^ s.regs[opb.toNat]), pc := s.pc + 3 }) ∧
    (∀ i ∈ [Instr.sub opa opb, .and opa opb, .xor opa opb],
      (8 ≤ opa.toNat → exec i s = .next (s.latched .outOfBounds (.location .REG opa.toNat))) ∧
      (opa.toNat < 8 → 8 ≤ opb.toNat → exec i s = .next (s.latched .outOfBounds (.location .REG opb.toNat))))

/-- DIV and MOD (R144, R145: D2, D14; log 3, log 13) with a divisor other than 0: quotient or remainder to `x[opa]`,
advance by 3, nothing else. -/
def Obligations.DivAndModWriteResult : Prop :=
  ∀ (opa opb : Byte) (s : State) (ha : opa.toNat < 8) (hb : opb.toNat < 8), s.regs[opb.toNat] ≠ 0 →
    exec (.div opa opb) s = .next { s with
      regs := s.regs.set opa.toNat (BitVec.ofNat 8 (s.regs[opa.toNat].toNat / s.regs[opb.toNat].toNat))
      pc := s.pc + 3 } ∧
    exec (.mod opa opb) s = .next { s with
      regs := s.regs.set opa.toNat (BitVec.ofNat 8 (s.regs[opa.toNat].toNat % s.regs[opb.toNat].toNat))
      pc := s.pc + 3 }

/-- DIV and MOD raise, in this order, OutOfBounds(REG) on `opa`, on `opb`, then DivisionByZero with the dividend, which
is not mutated (R144, R145, R204, R210: D2, D12; log 3, log 10). -/
def Obligations.DivAndModRaiseInOrder : Prop :=
  ∀ (opa opb : Byte) (s : State) (i : Instr), i ∈ [Instr.div opa opb, .mod opa opb] →
    (8 ≤ opa.toNat → exec i s = .next (s.latched .outOfBounds (.location .REG opa.toNat))) ∧
    (opa.toNat < 8 → 8 ≤ opb.toNat → exec i s = .next (s.latched .outOfBounds (.location .REG opb.toNat))) ∧
    (∀ (ha : opa.toNat < 8) (hb : opb.toNat < 8), s.regs[opb.toNat] = 0 →
      exec i s = .next (s.latched .divisionByZero (.dividend s.regs[opa.toNat])))

/-- R149: the common shape of the seven two-register ALU instructions over the ALU function: F2 encoding with the
instruction's own field of OPC, both reads, the ALU, the write of `x[opa]`, `pc + 3`, faults in order,
nothing else changed. -/
def Obligations.AluInstructionsShareOneShape : Prop :=
  ∀ (opa opb : Byte) (s : State) (i : Instr) (op : AluOp) (code : Byte),
    (i, op, code) ∈ [(Instr.add opa opb, AluOp.ADD, s.cfg.opc.add), (.sub opa opb, .SUB, s.cfg.opc.sub),
      (.mul opa opb, .MUL, s.cfg.opc.mul), (.div opa opb, .DIV, s.cfg.opc.div), (.mod opa opb, .MOD, s.cfg.opc.mod),
      (.and opa opb, .AND, s.cfg.opc.and), (.xor opa opb, .XOR, s.cfg.opc.xor)] →
    encode s.cfg i = [code, opa, opb] ∧
    (8 ≤ opa.toNat → exec i s = .next (s.latched .outOfBounds (.location .REG opa.toNat))) ∧
    (opa.toNat < 8 → 8 ≤ opb.toNat → exec i s = .next (s.latched .outOfBounds (.location .REG opb.toNat))) ∧
    (∀ (ha : opa.toNat < 8) (hb : opb.toNat < 8),
      (∀ r, alu op s.regs[opa.toNat] s.regs[opb.toNat] = .value r →
        exec i s = .next { s with regs := s.regs.set opa.toNat r, pc := s.pc + 3 }) ∧
      (∀ d, alu op s.regs[opa.toNat] s.regs[opb.toNat] = .divisionByZero d →
        exec i s = .next (s.latched .divisionByZero (.dividend d))) ∧
      (∀ f, alu op s.regs[opa.toNat] s.regs[opb.toNat] ≠ .flags f) ∧
      ((∃ d, alu op s.regs[opa.toNat] s.regs[opb.toNat] = .divisionByZero d) ↔
        (op = .DIV ∨ op = .MOD) ∧ s.regs[opb.toNat] = 0))

/-- With EXT_ALU_OPCODES false no step raises DivisionByZero (R204 last sentence, which the spec derives from R88). -/
def Obligations.NoDivisionByZeroWithoutOption : Prop :=
  ∀ s t : State, s.cfg.extAluOpcodes = false → step s = .next t → t.fault ≠ .divisionByZero

/-! ### PUSH and POP -/

/-- PUSH (R160) from SP other than 0: the new SP is SP - 1, the byte there is the register's value as read after the
decrement (for register 7 the new SP: D17, log 12), `pc + 2`; nothing else changes. -/
def Obligations.PushStoresAtDecrementedSp : Prop :=
  ∀ (opa : Byte) (s : State) (h : opa.toNat < 8), Memory.wf s.mem = true → s.sp ≠ 0 →
    encode s.cfg (.push opa) = [s.cfg.opc.push, opa] ∧
    ∃ t, exec (.push opa) s = .next t ∧ t.regs[7] = s.sp - 1 ∧ sameRegsExcept [7] s t ∧
      Memory.read t.mem (s.sp - 1).toNat = (if opa.toNat = 7 then s.sp - 1 else s.regs[opa.toNat]) ∧
      sameMemExcept [(s.sp - 1).toNat] s t ∧ t.pc = s.pc + 2 ∧ t = { s with regs := t.regs, mem := t.mem, pc := t.pc }

/-- PUSH and CALL raise StackOverflow(0) when SP is 0, before they look at the operand, then OutOfBounds(REG) on a bad
operand; SP, memory and `pc` are unchanged (R160, R170, R163, R210: the name is D13, log 11; the order D12, log 10). -/
def Obligations.PushAndCallRaiseInOrder : Prop :=
  ∀ (opa : Byte) (s : State) (i : Instr), i ∈ [Instr.push opa, .call opa] →
    (s.sp = 0 → exec i s = .next (s.latched .stackOverflow (.stackPointer 0))) ∧
    (s.sp ≠ 0 → 8 ≤ opa.toNat → exec i s = .next (s.latched .outOfBounds (.location .REG opa.toNat)))

/-- POP (R161): into a register other than 7 the byte at SP, SP + 1; into register 7 the byte plus 1 (D17, log 12);
`pc + 2`; memory and everything else unchanged. -/
def Obligations.PopLoadsFromSp : Prop :=
  ∀ (opa : Byte) (s : State) (h : opa.toNat < 8), encode s.cfg (.pop opa) = [s.cfg.opc.pop, opa] ∧
    (opa.toNat ≠ 7 → s.sp ≠ 255 → ∃ t, exec (.pop opa) s = .next t ∧
      t.regs[opa.toNat] = Memory.read s.mem s.sp.toNat ∧ t.regs[7] = s.sp + 1 ∧ sameRegsExcept [opa.toNat, 7] s t ∧
      t.pc = s.pc + 2 ∧ t = { s with regs := t.regs, pc := t.pc }) ∧
    (opa.toNat = 7 → Memory.read s.mem s.sp.toNat ≠ 255 → ∃ t, exec (.pop opa) s = .next t ∧
      t.regs[7] = Memory.read s.mem s.sp.toNat + 1 ∧ sameRegsExcept [7] s t ∧
      t.pc = s.pc + 2 ∧ t = { s with regs := t.regs, pc := t.pc })

/-- POP raises OutOfBounds(REG) on a bad operand first, then StackUnderflow(255) when the value about to be incremented
is 255: SP, or for register 7 the popped byte; no register and not `pc` changes (R161, R163, R210: D12, D13, D17). -/
def Obligations.PopRaisesInOrder : Prop :=
  ∀ (opa : Byte) (s : State),
    (8 ≤ opa.toNat → exec (.pop opa) s = .next (s.latched .outOfBounds (.location .REG opa.toNat))) ∧
    (opa.toNat < 7 → s.sp = 255 → exec (.pop opa) s = .next (s.latched .stackUnderflow (.stackPointer 255))) ∧
    (opa.toNat = 7 → Memory.read s.mem s.sp.toNat = 255 →
      exec (.pop opa) s = .next (s.latched .stackUnderflow (.stackPointer 255)))

/-- The push-pop law (R164, which the spec derives): whatever was done between to the other state, if SP and the pushed
cell are as the PUSH left them, POP of the same register restores the register and SP, and the pushed value stays in the
cell below. For register 7, SP is restored. -/
def Obligations.PopAfterPushRestoresRegisterAndSp : Prop :=
  ∀ (opa : Byte) (s t u : State) (h : opa.toNat < 8), Memory.wf s.mem = true → s.sp ≠ 0 →
    exec (.push opa) s = .next t → u.sp = t.sp → Memory.read u.mem t.sp.toNat = Memory.read t.mem t.sp.toNat →
    ∃ v, exec (.pop opa) u = .next v ∧ v.sp = s.sp ∧ v.fault = u.fault ∧
      (opa.toNat ≠ 7 → v.regs[opa.toNat] = s.regs[opa.toNat] ∧
        Memory.read v.mem (v.sp - 1).toNat = s.regs[opa.toNat])

/-! ### CALL and RET -/

/-- CALL (R170) from SP other than 0, at an address where it can be fetched: SP - 1, the return address `pc + 2` stored
whole at the new SP, `pc` at the register's value as read after the decrement (for register 7 the new SP: D17, log 12);
nothing else changes. -/
def Obligations.CallPushesReturnAddressAndJumps : Prop :=
  ∀ (opa : Byte) (s : State) (h : opa.toNat < 8), Memory.wf s.mem = true → s.sp ≠ 0 → s.pc.toNat ≤ 253 →
    encode s.cfg (.call opa) = [s.cfg.opc.call, opa] ∧
    ∃ t, exec (.call opa) s = .next t ∧ t.regs[7] = s.sp - 1 ∧ sameRegsExcept [7] s t ∧
      (Memory.read t.mem (s.sp - 1).toNat).toNat = s.pc.toNat + 2 ∧ sameMemExcept [(s.sp - 1).toNat] s t ∧
      t.pc.toNat = (if opa.toNat = 7 then s.sp - 1 else s.regs[opa.toNat]).toNat ∧
      t = { s with regs := t.regs, mem := t.mem, pc := t.pc }

/-- R172: RET takes `pc` from the byte at SP, whoever put it there, and increments SP, changing nothing else; when SP is
255 it raises StackUnderflow(255) and SP and `pc` are unchanged. -/
def Obligations.RetPopsProgramCounter : Prop :=
  ∀ s : State, encode s.cfg .ret = [s.cfg.opc.ret] ∧
    (s.sp ≠ 255 → ∃ t, exec .ret s = .next t ∧ t.pc.toNat = (Memory.read s.mem s.sp.toNat).toNat ∧
      t.regs[7] = s.sp + 1 ∧ sameRegsExcept [7] s t ∧ t = { s with regs := t.regs, pc := t.pc }) ∧
    (s.sp = 255 → exec .ret s = .next (s.latched .stackUnderflow (.stackPointer 255)))

/-- The call-return law (R173, which the spec derives): whatever ran between, if SP and the return cell are as the CALL
left them, RET comes back to the instruction after the CALL with SP as before it. -/
def Obligations.RetAfterCallReturnsBehindIt : Prop :=
  ∀ (opa : Byte) (s t u : State), opa.toNat < 8 → Memory.wf s.mem = true → s.sp ≠ 0 → s.pc.toNat ≤ 253 →
    exec (.call opa) s = .next t → u.sp = t.sp → Memory.read u.mem t.sp.toNat = Memory.read t.mem t.sp.toNat →
    ∃ v, exec .ret u = .next v ∧ v.pc.toNat = s.pc.toNat + 2 ∧ v.sp = s.sp ∧ v.fault = u.fault

/-- In a step, the byte a CALL stores is its own address plus 2, and is between 2 and 255: nothing is masked (R171, L5;
the spec derives it, D7). -/
def Obligations.StepOfCallStoresWholeReturnAddress : Prop :=
  ∀ (s t : State) (opa : Byte), Memory.wf s.mem = true → s.running →
    decode s.cfg (Memory.read s.mem s.pc.toNat) (Memory.read s.mem (s.pc.toNat + 1))
      (Memory.read s.mem (s.pc.toNat + 2)) = .ok (.call opa) →
    step s = .next t → t.fault = .noFault →
    (Memory.read t.mem t.sp.toNat).toNat = s.pc.toNat + 2 ∧ 2 ≤ s.pc.toNat + 2 ∧ s.pc.toNat + 2 ≤ 255

/-- SP never wraps: when an instruction of the stack completes, SP has moved by exactly one, down for PUSH and CALL, up
for RET and for POP into another register (R163, R39; names D13). -/
def Obligations.StackPointerMovesWithoutWrap : Prop :=
  ∀ (s t : State) (opa : Byte), s.fault = .noFault → t.fault = .noFault →
    (exec (.push opa) s = .next t → t.sp.toNat + 1 = s.sp.toNat) ∧
    (exec (.call opa) s = .next t → t.sp.toNat + 1 = s.sp.toNat) ∧
    (exec .ret s = .next t → t.sp.toNat = s.sp.toNat + 1) ∧
    (opa.toNat ≠ 7 → exec (.pop opa) s = .next t → t.sp.toNat = s.sp.toNat + 1)

/-! ### Branches -/

/-- R180: JMP sets `pc` to its register, zero-extended, and changes nothing else; a bad operand raises
OutOfBounds(REG). -/
def Obligations.JmpSetsProgramCounter : Prop :=
  ∀ (opa : Byte) (s : State), encode s.cfg (.jmp opa) = [s.cfg.opc.jmp, opa] ∧
    (∀ h : opa.toNat < 8, ∃ t, exec (.jmp opa) s = .next t ∧ t.pc.toNat = s.regs[opa.toNat].toNat ∧
      t = { s with pc := t.pc }) ∧
    (8 ≤ opa.toNat → exec (.jmp opa) s = .next (s.latched .outOfBounds (.location .REG opa.toNat)))

/-- R181 to R185: each conditional branch, with its own field of OPC and its own condition, sets `pc` to its register
when taken and to `pc + 2` when not, changes nothing else, and reads its register, and so faults on a bad operand, only when
taken. -/
def Obligations.ConditionalBranchesFollowTheirFlags : Prop :=
  ∀ (opa : Byte) (s : State) (i : Instr) (code : Byte) (taken : Prop),
    (i, code, taken) ∈ [(Instr.jeq opa, s.cfg.opc.jeq, s.flags.E = true), (.jne opa, s.cfg.opc.jne, s.flags.E = false),
      (.jlt opa, s.cfg.opc.jlt, s.flags.L = true), (.jgt opa, s.cfg.opc.jgt, s.flags.G = true),
      (.jge opa, s.cfg.opc.jge, s.flags.G = true ∨ s.flags.E = true)] →
    encode s.cfg i = [code, opa] ∧
    (¬taken → exec i s = .next { s with pc := s.pc + 2 }) ∧
    (taken → ∀ h : opa.toNat < 8, ∃ t, exec i s = .next t ∧ t.pc.toNat = s.regs[opa.toNat].toNat ∧
      t = { s with pc := t.pc }) ∧
    (taken → 8 ≤ opa.toNat → exec i s = .next (s.latched .outOfBounds (.location .REG opa.toNat)))

/-- The branch outcome table (R188): for each of the four flag states that can occur, which of JEQ, JNE, JLT, JGT, JGE
are taken. -/
def Obligations.BranchOutcomeTable : Prop :=
  ∀ (opa : Byte) (s : State) (h : opa.toNat < 8) (flags : Flags) (row : List Bool),
    (flags, row) ∈ [({ E := false, G := false, L := false }, [false, true, false, false, false]),
      ({ E := true, G := false, L := false }, [true, false, false, false, true]),
      ({ E := false, G := true, L := false }, [false, true, false, true, true]),
      ({ E := false, G := false, L := true }, [false, true, true, false, false])] →
    s.flags = flags →
    List.map (fun i => exec i s) [.jeq opa, .jne opa, .jlt opa, .jgt opa, .jge opa] =
      row.map fun taken => .next { s with pc := if taken then s.regs[opa.toNat].setWidth 9 else s.pc + 2 }

/-! ### What an instruction leaves alone, and where `pc` goes -/

/-- The frame of every instruction on registers and memory (R22, R51; L6): no register outside its write set and no
cell but, for PUSH and CALL, the one at SP - 1, whether it completes or faults. -/
def Obligations.EveryInstructionKeepsOtherRegistersAndCells : Prop :=
  ∀ (i : Instr) (s t : State), exec i s = .next t →
    sameRegsExcept (regWriteSet i) s t ∧ sameMemExcept (memWriteSet i s) s t

/-- Only CMP writes the flags (R30, D9; log 15). -/
def Obligations.OnlyCmpChangesFlags : Prop :=
  ∀ (i : Instr) (s t : State), exec i s = .next t → t.flags ≠ s.flags → i.mnemonic = .CMP

/-- Only HLT sets Halted, only PRN changes OUT, and it appends one value (R32, R35; L6); no instruction writes the
configuration (R37). -/
def Obligations.OnlyHltHaltsAndOnlyPrnOutputs : Prop :=
  ∀ (i : Instr) (s t : State), exec i s = .next t →
    (t.halted ≠ s.halted → i.mnemonic = .HLT ∧ t.halted = true) ∧
    (t.out ≠ s.out → i.mnemonic = .PRN ∧ ∃ v, t.out = s.out ++ [v]) ∧ t.cfg = s.cfg

/-- R26: the `pc` each instruction leaves, and that a faulting one leaves it unchanged. -/
def Obligations.ProgramCounterAfterEachInstruction : Prop :=
  ∀ (i : Instr) (s t : State), s.fault = .noFault → exec i s = .next t →
    (t.fault = .noFault → t.pc = pcAfter i s) ∧ (t.fault ≠ .noFault → t.pc = s.pc)

/-- A sequential advance is exact, with no wrap (R105, D6; log 6): at `pc` of at most 253, `pc <- pc + k` for `k` up to 3
leaves the exact sum, and a step that completes any instruction but CALL, RET and the branches leaves `pc` at the address
right behind the instruction's bytes, 256 included. The new `pc` of any step is at most 256, reached only from 253
(R27). -/
def Obligations.ProgramCounterNeverWraps : Prop :=
  (∀ (s : State) (k : Pc), s.pc.toNat ≤ 253 → k.toNat ≤ 3 → (s.advance k).pc.toNat = s.pc.toNat + k.toNat) ∧
  ∀ s t : State, s.pc.toNat ≤ 256 → step s = .next t →
    t.pc.toNat ≤ 256 ∧ (t.pc.toNat = 256 → s.pc.toNat = 253 ∨ s.pc.toNat = 256) ∧
    (∀ i : Instr, decode s.cfg (Memory.read s.mem s.pc.toNat) (Memory.read s.mem (s.pc.toNat + 1))
        (Memory.read s.mem (s.pc.toNat + 2)) = .ok i → t.fault = .noFault →
      i.mnemonic ∉ [Mnemonic.CALL, .RET, .JMP, .JEQ, .JNE, .JLT, .JGT, .JGE] →
      t.pc.toNat = s.pc.toNat + (encode s.cfg i).length)

/-- A step reads no memory but the three cells of its window and the cell at SP (R51): over two memories that agree
there, the steps agree on everything but memory; and of memory, every cell on which the two agreed before, and the cell
at SP - 1 that a PUSH or a CALL has written, reads alike after. -/
def Obligations.StepReadsOnlyWindowAndStackTop : Prop :=
  ∀ (s t : State) (m : List Host.Cell),
    (∀ a ∈ [s.pc.toNat, s.pc.toNat + 1, s.pc.toNat + 2, s.sp.toNat], Memory.read m a = Memory.read s.mem a) →
    step s = .next t → ∃ t', step { s with mem := m } = .next t' ∧ t' = { t with mem := t'.mem } ∧
      (Memory.wf s.mem = true → Memory.wf m = true →
        (∀ a : Nat, Memory.read m a = Memory.read s.mem a → Memory.read t'.mem a = Memory.read t.mem a) ∧
        (∀ opa : Byte, t.fault = .noFault →
          decode s.cfg (Memory.read s.mem s.pc.toNat) (Memory.read s.mem (s.pc.toNat + 1))
            (Memory.read s.mem (s.pc.toNat + 2)) ∈ [.ok (.push opa), .ok (.call opa)] →
          Memory.read t'.mem (s.sp - 1).toNat = Memory.read t.mem (s.sp - 1).toNat))

/-! ### Faults -/

/-- Faults are precise (R200, R211, L9; that nothing else changes is the spec's decision D11; log 8): a step that ends
Faulted changes the latch alone, and the latch holds a kind, the `pc` of the instruction and the info of that kind
(R201, R202, R203; log 18): the bad operand byte of the decoded instruction, the address beyond memory, the value of
the dividend register of the decoded DIV or MOD, the opcode byte, the SP value. -/
def Obligations.FaultingStepChangesOnlyTheLatch : Prop :=
  ∀ (s t : State) (fetched : Except DecodeReject Instr), step s = .next t → t.fault ≠ .noFault →
    decode s.cfg (Memory.read s.mem s.pc.toNat) (Memory.read s.mem (s.pc.toNat + 1))
      (Memory.read s.mem (s.pc.toNat + 2)) = fetched →
    ∃ detail, t = s.latched t.fault detail ∧
      (t.fault = .outOfBounds → (254 ≤ s.pc.toNat ∧ detail = .location .MEM (max s.pc.toNat 256)) ∨
        ∃ i, s.pc.toNat < 254 ∧ fetched = .ok i ∧ ∃ b ∈ i.regOperands, 8 ≤ b.toNat ∧ detail = .location .REG b.toNat) ∧
      (t.fault = .divisionByZero → ∃ (opa opb : Byte) (h : opa.toNat < 8),
        (fetched = .ok (.div opa opb) ∨ fetched = .ok (.mod opa opb)) ∧ detail = .dividend s.regs[opa.toNat]) ∧
      (t.fault = .unknownInstruction → fetched = .error (.unknownInstruction (Memory.read s.mem s.pc.toNat)) ∧
        detail = .opcode (Memory.read s.mem s.pc.toNat)) ∧
      (t.fault = .stackOverflow → s.sp = 0 ∧ detail = .stackPointer 0) ∧
      (t.fault = .stackUnderflow → detail = .stackPointer 255)

/-- Which instructions raise which kind (the raised-by column of R201, R205; naming D13, D22): no instruction raises
UnsupportedOperation or UnknownInstruction or OutOfBounds(MEM). -/
def Obligations.FaultKindsComeFromTheirInstructions : Prop :=
  ∀ (i : Instr) (s t : State), s.fault = .noFault → exec i s = .next t →
    (t.fault = .divisionByZero → i.mnemonic ∈ [Mnemonic.DIV, .MOD]) ∧
    (t.fault = .stackOverflow → i.mnemonic ∈ [Mnemonic.PUSH, .CALL]) ∧
    (t.fault = .stackUnderflow → i.mnemonic ∈ [Mnemonic.POP, .RET]) ∧
    (t.fault = .outOfBounds → ∃ b ∈ i.regOperands, 8 ≤ b.toNat ∧
      t.faultInfo = some { detail := .location .REG b.toNat, pc := s.pc }) ∧
    t.fault ≠ .unsupportedOperation ∧ t.fault ≠ .unknownInstruction

/-- An instruction whose register operands are all below 8, with SP away from both ends of the stack, a popped byte
below 255 and no zero divisor in its second register, completes: exec answers a next state that is not Faulted. -/
def Obligations.WellBehavedInstructionsComplete : Prop :=
  ∀ (i : Instr) (s : State), s.fault = .noFault → i.regsInRange = true → s.sp ≠ 0 → s.sp ≠ 255 →
    Memory.read s.mem s.sp.toNat ≠ 255 →
    (∀ opa opb : Byte, i = .div opa opb ∨ i = .mod opa opb → regOf s.regs opb.toNat ≠ 0) →
    ∃ t, exec i s = .next t ∧ t.fault = .noFault ∧ t.pc = pcAfter i s

/-- FAULT_CODE (R201; the numbers are the spec's own, D19; log 18). -/
def Obligations.FaultCodesAreTabulated : Prop :=
  [FaultKind.noFault, .outOfBounds, .divisionByZero, .unsupportedOperation, .unknownInstruction, .stackOverflow,
    .stackUnderflow].map FaultKind.code = [0, 1, 2, 3, 4, 5, 6]

/-! ### Invariants and whole-machine rules -/

/-- The state after reset, and every launch state, meets the invariant of R39 and is Running (R38, R100). -/
def Obligations.LaunchStatesSatisfyInvariant : Prop :=
  State.reset.Inv ∧ State.reset.running ∧
  ∀ (cfg : Config) (image : List Byte) (s : State), launch cfg image = some s → s.Inv ∧ s.running

/-- Every step keeps the invariant of R39, from every state that meets it: memory canonical, `pc` at most 256, at most
one flag, never both Halted and Faulted, the latch consistent. -/
def Obligations.StepKeepsInvariant : Prop :=
  ∀ s t : State, s.Inv → step s = .next t → t.Inv

/-- R39 (e) and R37 along any step: OUT only grows, and the configuration is never written. -/
def Obligations.OutOnlyGrowsAndConfigurationStays : Prop :=
  ∀ s t : State, step s = .next t → s.out <+: t.out ∧ t.out.length ≤ s.out.length + 1 ∧ t.cfg = s.cfg

/-- Over every run of every program image, for any number of steps: the invariant of R39 holds, OUT extends every
earlier OUT, and the configuration is the launch's; and a run that cannot go on stands in a state it reached that is
Halted without a fault (a normal end) or Faulted and not Halted (an abort), the two ways of R108, and no other. Its step
lemmas are StepKeepsInvariant and OutOnlyGrowsAndConfigurationStays. -/
def Obligations.EveryRunOfEveryImageKeepsInvariant : Prop :=
  ∀ (cfg : Config) (image : List Byte) (s : State) (n : Nat), launch cfg image = some s →
    (∀ t : State, Sys2Proof.core.run n s = .next t → t.Inv ∧ s.out <+: t.out ∧ t.cfg = cfg) ∧
    (∀ f : Fault, Sys2Proof.core.run n s = .fault f → ∃ (m : Nat) (t : State), m < n ∧
      Sys2Proof.core.run m s = .next t ∧ (t.endedNormally ∧ f = .halted ∨ t.aborted ∧ f = .faulted)) ∧
    (∀ r : Refusal, Sys2Proof.core.run n s ≠ .refused r)

/-- A store is fetched by the next step (R62, which the spec derives, D30; program P5): a PUSH whose stack cell is the byte
right behind it, holding the opcode of HLT, is followed by that HLT. For every legal OPC. -/
def Obligations.PushedOpcodeRunsNext : Prop :=
  ∀ (s : State) (opa : Byte) (h : opa.toNat < 7), s.running → s.cfg.legal = true → Memory.wf s.mem = true →
    s.pc.toNat ≤ 251 → Memory.read s.mem s.pc.toNat = s.cfg.opc.push → Memory.read s.mem (s.pc.toNat + 1) = opa →
    s.sp.toNat = s.pc.toNat + 3 → s.regs[opa.toNat] = s.cfg.opc.hlt →
    ∃ t u, step s = .next t ∧ step t = .next u ∧ u.halted = true ∧ u.fault = .noFault ∧ u.pc.toNat = s.pc.toNat + 3
end

