-- ==== Sys2Proof/Laws/Memory.lean ====
section
/-! SUPPORT. The laws of memory: read after write, what a write leaves alone, that every memory operation keeps the
canonical form, and that two canonical memories that read alike are the same list. -/

namespace Sys2Proof.Machine

@[simp] theorem Memory.read_nil (a : Nat) : Memory.read [] a = 0 := rfl

theorem Memory.read_cons (k : Nat) (v : Byte) (m : List Host.Cell) (a : Nat) :
    Memory.read ((k, v) :: m) a = if k = a then v else Memory.read m a := rfl

/-- The canonical form, one cell at a time. -/
theorem Memory.wfFrom_cons (lo k : Nat) (v : Byte) (m : List Host.Cell) :
    Memory.wfFrom lo ((k, v) :: m) = true ↔
      lo ≤ k ∧ k < 256 ∧ v ≠ 0 ∧ Memory.wfFrom (k + 1) m = true := by
  simp only [Memory.wfFrom, Bool.and_eq_true, decide_eq_true_eq, and_assoc]
  exact Iff.rfl

theorem Memory.wfFrom_mono {lo lo' : Nat} {m : List Host.Cell} (h : lo ≤ lo')
    (hm : Memory.wfFrom lo' m = true) : Memory.wfFrom lo m = true := by
  cases m with
  | nil => rfl
  | cons c m =>
    obtain ⟨k, v⟩ := c
    rw [Memory.wfFrom_cons] at hm ⊢
    exact ⟨h.trans hm.1, hm.2⟩

/-- A cell below the lowest listed address reads as the unlisted byte. -/
theorem Memory.read_below {lo : Nat} {m : List Host.Cell} (hm : Memory.wfFrom lo m = true) {a : Nat} (h : a < lo) :
    Memory.read m a = 0 := by
  induction m generalizing lo with
  | nil => rfl
  | cons c m ih =>
    obtain ⟨k, v⟩ := c
    rw [Memory.wfFrom_cons] at hm
    rw [Memory.read_cons, if_neg (by omega), ih hm.2.2.2 (by omega)]

/-- A cell outside the address space reads as the unlisted byte: nothing is listed there. -/
theorem Memory.read_beyond {lo : Nat} {m : List Host.Cell} (hm : Memory.wfFrom lo m = true) {a : Nat} (h : 256 ≤ a) :
    Memory.read m a = 0 := by
  induction m generalizing lo with
  | nil => rfl
  | cons c m ih =>
    obtain ⟨k, v⟩ := c
    rw [Memory.wfFrom_cons] at hm
    rw [Memory.read_cons, if_neg (by omega), ih hm.2.2.2]

theorem Memory.read_write_other (m : List Host.Cell) {a b : Nat} (v : Byte) (h : b ≠ a) :
    Memory.read (Memory.write m a v) b = Memory.read m b := by
  induction m with
  | nil => by_cases hv : v = unlistedByte <;> simp [Memory.write, hv, Memory.read_cons, Ne.symm h]
  | cons c m ih =>
    obtain ⟨k, w⟩ := c
    unfold Memory.write
    split_ifs with h1 hv h2 hv
    · rfl
    · rw [Memory.read_cons, if_neg (Ne.symm h)]
    · rw [Memory.read_cons, if_neg (by omega)]
    · rw [Memory.read_cons, Memory.read_cons, if_neg (Ne.symm h), if_neg (by omega)]
    · rw [Memory.read_cons, Memory.read_cons, ih]

theorem Memory.read_write_same {lo : Nat} {m : List Host.Cell} (hm : Memory.wfFrom lo m = true) (a : Nat) (v : Byte) :
    Memory.read (Memory.write m a v) a = v := by
  induction m generalizing lo with
  | nil =>
    by_cases hv : v = unlistedByte
    · rw [hv]; rfl
    · simp [Memory.write, hv, Memory.read_cons]
  | cons c m ih =>
    obtain ⟨k, w⟩ := c
    rw [Memory.wfFrom_cons] at hm
    unfold Memory.write
    split_ifs with h1 hv h2 hv
    · rw [Memory.read_cons, if_neg (by omega), Memory.read_below hm.2.2.2 (by omega), hv]; rfl
    · rw [Memory.read_cons, if_pos rfl]
    · rw [Memory.read_below hm.2.2.2 (by omega), hv]; rfl
    · rw [Memory.read_cons, if_pos rfl]
    · rw [Memory.read_cons, if_neg (by omega), ih hm.2.2.2]

theorem Memory.write_wfFrom {lo : Nat} {m : List Host.Cell} (hm : Memory.wfFrom lo m = true) {a : Nat} (hlo : lo ≤ a)
    (ha : a < 256) (v : Byte) : Memory.wfFrom lo (Memory.write m a v) = true := by
  induction m generalizing lo with
  | nil =>
    by_cases hv : v = unlistedByte
    · simp [Memory.write, hv, Memory.wfFrom]
    · have hv' : v ≠ 0 := hv
      simp only [Memory.write, if_neg hv, Memory.wfFrom_cons]
      exact ⟨hlo, ha, hv', rfl⟩
  | cons c m ih =>
    obtain ⟨k, w⟩ := c
    have hc := hm
    rw [Memory.wfFrom_cons] at hm
    obtain ⟨h1, h2, h3, h4⟩ := hm
    unfold Memory.write
    split_ifs with hk hv hk' hv
    · exact hc
    · rw [Memory.wfFrom_cons, Memory.wfFrom_cons]
      exact ⟨hlo, ha, hv, by omega, h2, h3, h4⟩
    · exact Memory.wfFrom_mono (by omega) h4
    · rw [Memory.wfFrom_cons]
      exact ⟨hlo, ha, hv, hk' ▸ h4⟩
    · rw [Memory.wfFrom_cons]
      exact ⟨h1, h2, h3, ih h4 (by omega)⟩

/-- A write inside the address space keeps the canonical form. -/
theorem Memory.write_wf {m : List Host.Cell} (hm : Memory.wf m = true) {a : Nat} (ha : a < 256) (v : Byte) :
    Memory.wf (Memory.write m a v) = true :=
  Memory.write_wfFrom hm (Nat.zero_le a) ha v

theorem Memory.read_write {m : List Host.Cell} (hm : Memory.wf m = true) (a b : Nat) (v : Byte) :
    Memory.read (Memory.write m a v) b = if b = a then v else Memory.read m b := by
  by_cases h : b = a
  · rw [if_pos h, h, Memory.read_write_same hm]
  · rw [if_neg h, Memory.read_write_other m v h]

/-- Placing bytes keeps the canonical form. -/
theorem Memory.place_wf {m : List Host.Cell} (hm : Memory.wf m = true) (a : Nat) (bs : List Byte) :
    Memory.wf (Memory.place m a bs) = true := by
  induction bs generalizing m a with
  | nil => exact hm
  | cons b bs ih =>
    unfold Memory.place
    split_ifs with h
    · exact ih (Memory.write_wf hm h b) (a + 1)
    · exact ih hm (a + 1)

/-- Placing bytes from `a` leaves every cell below `a` alone. -/
theorem Memory.read_place_below (m : List Host.Cell) (a : Nat) (bs : List Byte) {c : Nat} (h : c < a) :
    Memory.read (Memory.place m a bs) c = Memory.read m c := by
  induction bs generalizing m a with
  | nil => rfl
  | cons b bs ih =>
    unfold Memory.place
    rw [ih _ _ (by omega)]
    split_ifs
    · exact Memory.read_write_other m b (by omega)
    · rfl

/-- Two canonical memories that read alike are equal data. -/
theorem Memory.eq_of_read_eq {lo : Nat} {m n : List Host.Cell} (hm : Memory.wfFrom lo m = true)
    (hn : Memory.wfFrom lo n = true) (h : ∀ a, Memory.read m a = Memory.read n a) : m = n := by
  induction m generalizing lo n with
  | nil =>
    cases n with
    | nil => rfl
    | cons c n =>
      obtain ⟨k, v⟩ := c
      have hk := h k
      rw [Memory.read_cons, if_pos rfl, Memory.read_nil] at hk
      exact absurd hk.symm ((Memory.wfFrom_cons ..).mp hn).2.2.1
  | cons c m ih =>
    obtain ⟨k, v⟩ := c
    have hm' := (Memory.wfFrom_cons ..).mp hm
    cases n with
    | nil =>
      have hk := h k
      rw [Memory.read_cons, if_pos rfl, Memory.read_nil] at hk
      exact absurd hk hm'.2.2.1
    | cons d n =>
      obtain ⟨l, w⟩ := d
      have hn' := (Memory.wfFrom_cons ..).mp hn
      have hkl : k = l := by
        have hk := h k
        have hl := h l
        rw [Memory.read_cons, if_pos rfl, Memory.read_cons] at hk
        rw [Memory.read_cons l, if_pos rfl, Memory.read_cons] at hl
        by_contra hne
        rw [if_neg (Ne.symm hne)] at hk
        rw [if_neg hne] at hl
        rcases Nat.lt_or_gt_of_ne hne with hlt | hlt
        · rw [Memory.read_below hn'.2.2.2 (by omega)] at hk
          exact hm'.2.2.1 hk
        · rw [Memory.read_below hm'.2.2.2 (by omega)] at hl
          exact hn'.2.2.1 hl.symm
      subst hkl
      have hv : v = w := by
        have hk := h k
        rwa [Memory.read_cons, if_pos rfl, Memory.read_cons, if_pos rfl] at hk
      subst hv
      rw [ih hm'.2.2.2 hn'.2.2.2 fun a => ?_]
      by_cases ha : k = a
      · rw [← ha, Memory.read_below hm'.2.2.2 (by omega), Memory.read_below hn'.2.2.2 (by omega)]
      · have hka := h a
        rwa [Memory.read_cons, Memory.read_cons, if_neg ha, if_neg ha] at hka

end Sys2Proof.Machine
end

