-- ==== Sys2Proof/Laws/State.lean ====
section
/-! SUPPORT. One lemma per field per named update of the state, true by rfl, so that no later proof unfolds a record
update; and the fields of the state after reset. -/

namespace Sys2Proof.Machine

/-! ### State.advance -/

@[simp] theorem State.advance_cfg (s : State) (k : Pc) : (s.advance k).cfg = s.cfg := rfl
@[simp] theorem State.advance_regs (s : State) (k : Pc) : (s.advance k).regs = s.regs := rfl
@[simp] theorem State.advance_pc (s : State) (k : Pc) : (s.advance k).pc = s.pc + k := rfl
@[simp] theorem State.advance_flags (s : State) (k : Pc) : (s.advance k).flags = s.flags := rfl
@[simp] theorem State.advance_halted (s : State) (k : Pc) : (s.advance k).halted = s.halted := rfl
@[simp] theorem State.advance_fault (s : State) (k : Pc) : (s.advance k).fault = s.fault := rfl
@[simp] theorem State.advance_faultInfo (s : State) (k : Pc) : (s.advance k).faultInfo = s.faultInfo := rfl
@[simp] theorem State.advance_mem (s : State) (k : Pc) : (s.advance k).mem = s.mem := rfl
@[simp] theorem State.advance_out (s : State) (k : Pc) : (s.advance k).out = s.out := rfl

/-! ### State.jumpTo -/

@[simp] theorem State.jumpTo_cfg (s : State) (t : Byte) : (s.jumpTo t).cfg = s.cfg := rfl
@[simp] theorem State.jumpTo_regs (s : State) (t : Byte) : (s.jumpTo t).regs = s.regs := rfl
@[simp] theorem State.jumpTo_pc (s : State) (t : Byte) : (s.jumpTo t).pc = t.setWidth 9 := rfl
@[simp] theorem State.jumpTo_flags (s : State) (t : Byte) : (s.jumpTo t).flags = s.flags := rfl
@[simp] theorem State.jumpTo_halted (s : State) (t : Byte) : (s.jumpTo t).halted = s.halted := rfl
@[simp] theorem State.jumpTo_fault (s : State) (t : Byte) : (s.jumpTo t).fault = s.fault := rfl
@[simp] theorem State.jumpTo_faultInfo (s : State) (t : Byte) : (s.jumpTo t).faultInfo = s.faultInfo := rfl
@[simp] theorem State.jumpTo_mem (s : State) (t : Byte) : (s.jumpTo t).mem = s.mem := rfl
@[simp] theorem State.jumpTo_out (s : State) (t : Byte) : (s.jumpTo t).out = s.out := rfl

/-! ### State.setFlags -/

@[simp] theorem State.setFlags_cfg (s : State) (f : Flags) : (s.setFlags f).cfg = s.cfg := rfl
@[simp] theorem State.setFlags_regs (s : State) (f : Flags) : (s.setFlags f).regs = s.regs := rfl
@[simp] theorem State.setFlags_pc (s : State) (f : Flags) : (s.setFlags f).pc = s.pc := rfl
@[simp] theorem State.setFlags_flags (s : State) (f : Flags) : (s.setFlags f).flags = f := rfl
@[simp] theorem State.setFlags_halted (s : State) (f : Flags) : (s.setFlags f).halted = s.halted := rfl
@[simp] theorem State.setFlags_fault (s : State) (f : Flags) : (s.setFlags f).fault = s.fault := rfl
@[simp] theorem State.setFlags_faultInfo (s : State) (f : Flags) : (s.setFlags f).faultInfo = s.faultInfo := rfl
@[simp] theorem State.setFlags_mem (s : State) (f : Flags) : (s.setFlags f).mem = s.mem := rfl
@[simp] theorem State.setFlags_out (s : State) (f : Flags) : (s.setFlags f).out = s.out := rfl

/-! ### State.halt -/

@[simp] theorem State.halt_cfg (s : State) : (s.halt).cfg = s.cfg := rfl
@[simp] theorem State.halt_regs (s : State) : (s.halt).regs = s.regs := rfl
@[simp] theorem State.halt_pc (s : State) : (s.halt).pc = s.pc := rfl
@[simp] theorem State.halt_flags (s : State) : (s.halt).flags = s.flags := rfl
@[simp] theorem State.halt_halted (s : State) : (s.halt).halted = true := rfl
@[simp] theorem State.halt_fault (s : State) : (s.halt).fault = s.fault := rfl
@[simp] theorem State.halt_faultInfo (s : State) : (s.halt).faultInfo = s.faultInfo := rfl
@[simp] theorem State.halt_mem (s : State) : (s.halt).mem = s.mem := rfl
@[simp] theorem State.halt_out (s : State) : (s.halt).out = s.out := rfl

/-! ### State.emit -/

@[simp] theorem State.emit_cfg (s : State) (v : Byte) : (s.emit v).cfg = s.cfg := rfl
@[simp] theorem State.emit_regs (s : State) (v : Byte) : (s.emit v).regs = s.regs := rfl
@[simp] theorem State.emit_pc (s : State) (v : Byte) : (s.emit v).pc = s.pc := rfl
@[simp] theorem State.emit_flags (s : State) (v : Byte) : (s.emit v).flags = s.flags := rfl
@[simp] theorem State.emit_halted (s : State) (v : Byte) : (s.emit v).halted = s.halted := rfl
@[simp] theorem State.emit_fault (s : State) (v : Byte) : (s.emit v).fault = s.fault := rfl
@[simp] theorem State.emit_faultInfo (s : State) (v : Byte) : (s.emit v).faultInfo = s.faultInfo := rfl
@[simp] theorem State.emit_mem (s : State) (v : Byte) : (s.emit v).mem = s.mem := rfl
@[simp] theorem State.emit_out (s : State) (v : Byte) : (s.emit v).out = s.out ++ [v] := rfl

/-! ### State.raise -/

@[simp] theorem State.raise_cfg (s : State) (k : Raise) : (s.raise k).cfg = s.cfg := rfl
@[simp] theorem State.raise_regs (s : State) (k : Raise) : (s.raise k).regs = s.regs := rfl
@[simp] theorem State.raise_pc (s : State) (k : Raise) : (s.raise k).pc = s.pc := rfl
@[simp] theorem State.raise_flags (s : State) (k : Raise) : (s.raise k).flags = s.flags := rfl
@[simp] theorem State.raise_halted (s : State) (k : Raise) : (s.raise k).halted = s.halted := rfl
@[simp] theorem State.raise_fault (s : State) (k : Raise) : (s.raise k).fault = k.kind := rfl
@[simp] theorem State.raise_faultInfo (s : State) (k : Raise) : (s.raise k).faultInfo = some { detail := k.detail, pc := s.pc } := rfl
@[simp] theorem State.raise_mem (s : State) (k : Raise) : (s.raise k).mem = s.mem := rfl
@[simp] theorem State.raise_out (s : State) (k : Raise) : (s.raise k).out = s.out := rfl

/-! ### Reset -/

@[simp] theorem State.reset_cfg : State.reset.cfg = defaultConfig := rfl
@[simp] theorem State.reset_pc : State.reset.pc = 0 := rfl
@[simp] theorem State.reset_halted : State.reset.halted = false := rfl
@[simp] theorem State.reset_fault : State.reset.fault = .noFault := rfl
@[simp] theorem State.reset_faultInfo : State.reset.faultInfo = none := rfl
@[simp] theorem State.reset_mem : State.reset.mem = [] := rfl
@[simp] theorem State.reset_out : State.reset.out = [] := rfl
@[simp] theorem State.reset_flags : State.reset.flags = { E := false, G := false, L := false } := rfl

end Sys2Proof.Machine
end

