-- ==== Sys2Proof/Laws/Ops.lean ====
section
/-! SUPPORT. One lemma per shared operation, saying everything it can do: the register and memory primitives, the two
moves of SP, and the end of a pseudocode block. -/

namespace Sys2Proof.Machine

theorem State.regRead_eq (s : State) (i : Nat) :
    s.regRead i = if h : i < 8 then .ok s.regs[i] else .error (.regOutOfBounds i) := rfl

theorem State.regWrite_eq (s : State) (i : Nat) (v : Byte) :
    s.regWrite i v = if h : i < 8 then .ok { s with regs := s.regs.set i v } else .error (.regOutOfBounds i) := rfl

theorem State.memRead_eq (s : State) (a : Nat) :
    s.memRead a = if a < 256 then .ok (Memory.read s.mem a) else .error (.memOutOfBounds a) := rfl

theorem State.memWrite_eq (s : State) (a : Nat) (v : Byte) :
    s.memWrite a v = if a < 256 then .ok { s with mem := Memory.write s.mem a v } else .error (.memOutOfBounds a) := rfl

theorem State.sp_eq (s : State) : s.sp = s.regs[7] := rfl

/-- An access at a stack address never leaves the address space (R52). -/
theorem State.memRead_byte (s : State) (a : Byte) : s.memRead a.toNat = .ok (Memory.read s.mem a.toNat) := by
  rw [State.memRead_eq, if_pos a.isLt]

theorem State.memWrite_byte (s : State) (a v : Byte) :
    s.memWrite a.toNat v = .ok { s with mem := Memory.write s.mem a.toNat v } := by
  rw [State.memWrite_eq, if_pos a.isLt]

theorem State.spDecrement_eq (s : State) :
    s.spDecrement =
      if s.regs[7] = 0 then .error (.stackOverflow 0) else .ok { s with regs := s.regs.set 7 (s.regs[7] - 1) } := by
  unfold State.spDecrement
  rw [State.sp_eq]
  split_ifs with h
  · rw [h]
  · rfl

theorem State.spIncrement_eq (s : State) :
    s.spIncrement =
      if s.regs[7] = 255 then .error (.stackUnderflow 255) else .ok { s with regs := s.regs.set 7 (s.regs[7] + 1) } := by
  unfold State.spIncrement
  rw [State.sp_eq]
  split_ifs with h
  · rw [h]
  · rfl

@[simp] theorem State.complete_ok (s t : State) : s.complete (.ok t) = .next t := rfl

@[simp] theorem State.complete_error (s : State) (k : Raise) : s.complete (.error k) = .next (s.raise k) := rfl

/-- A block always ends in a next state: the state it built, or the fault taken where it began (R12). -/
theorem State.complete_cases (s : State) (r : Except Raise State) (t : State) :
    s.complete r = .next t ↔ r = .ok t ∨ ∃ k, r = .error k ∧ t = s.raise k := by
  cases r with
  | ok u => simp [eq_comm]
  | error k => simp [eq_comm]

/-- Only a raise latches a kind, and never the kind None. -/
@[simp] theorem Raise.kind_ne_noFault (k : Raise) : k.kind ≠ .noFault := by
  cases k <;> exact FaultKind.noConfusion

/-- The fetch: three bytes, or the first address of the window beyond the address space (R101). -/
theorem State.fetch_eq (s : State) :
    s.fetch =
      if s.pc.toNat + 2 < 256 then
        .ok (Memory.read s.mem s.pc.toNat, Memory.read s.mem (s.pc.toNat + 1), Memory.read s.mem (s.pc.toNat + 2))
      else .error (.memOutOfBounds (max s.pc.toNat 256)) := by
  unfold State.fetch
  simp only [State.memRead_eq]
  by_cases h2 : s.pc.toNat + 2 < 256
  · simp only [if_pos h2, if_pos (show s.pc.toNat + 1 < 256 by omega), if_pos (show s.pc.toNat < 256 by omega)]; rfl
  · by_cases h1 : s.pc.toNat + 1 < 256
    · simp only [if_neg h2, if_pos h1, if_pos (show s.pc.toNat < 256 by omega),
        show max s.pc.toNat 256 = s.pc.toNat + 2 by omega]; rfl
    · by_cases h0 : s.pc.toNat < 256
      · simp only [if_neg h2, if_neg h1, if_pos h0, show max s.pc.toNat 256 = s.pc.toNat + 1 by omega]; rfl
      · simp only [if_neg h2, if_neg h0, show max s.pc.toNat 256 = s.pc.toNat by omega]; rfl

end Sys2Proof.Machine
end

