-- ==== Sys2Proof/Laws/Blocks.lean ====
section
/-! SUPPORT. One equation per pseudocode block: what it answers for every operand byte and every state, guards included.
Later proofs cite these instead of unfolding a block. -/

namespace Sys2Proof.Machine

theorem ldiBlock_eq (opa imm : Byte) (s : State) :
    ldiBlock opa imm s =
      if h : opa.toNat < 8 then .ok { s with regs := s.regs.set opa.toNat imm, pc := s.pc + 3 }
      else .error (.regOutOfBounds opa.toNat) := by
  unfold ldiBlock State.writeOperand immediate
  rw [State.regWrite_eq]
  split_ifs <;> rfl

theorem prnBlock_eq (opa : Byte) (s : State) :
    prnBlock opa s =
      if h : opa.toNat < 8 then .ok { s with out := s.out ++ [s.regs[opa.toNat]], pc := s.pc + 2 }
      else .error (.regOutOfBounds opa.toNat) := by
  unfold prnBlock State.readOperand
  rw [State.regRead_eq]
  split_ifs <;> rfl

/-- The end of an ALU instruction, once both registers are read (R149, R142). -/
def aluStore (opa : Byte) (h : opa.toNat < 8) (s : State) : AluResult → Except Raise State
  | .value r => .ok { s with regs := s.regs.set opa.toNat r, pc := s.pc + 3 }
  | .flags f => .ok { s with flags := f, pc := s.pc + 3 }
  | .divisionByZero d => .error (.divisionByZero d)

theorem aluBlock_eq (op : AluOp) (opa opb : Byte) (s : State) :
    aluBlock op opa opb s =
      if ha : opa.toNat < 8 then
        if hb : opb.toNat < 8 then aluStore opa ha s (alu op s.regs[opa.toNat] s.regs[opb.toNat])
        else .error (.regOutOfBounds opb.toNat)
      else .error (.regOutOfBounds opa.toNat) := by
  unfold aluBlock State.readOperand State.writeOperand
  simp only [State.regRead_eq, State.regWrite_eq]
  by_cases ha : opa.toNat < 8
  · by_cases hb : opb.toNat < 8
    · simp only [dif_pos ha, dif_pos hb, bind, Except.bind]
      cases alu op s.regs[opa.toNat] s.regs[opb.toNat] <;> rfl
    · simp only [dif_pos ha, dif_neg hb, bind, Except.bind]
  · simp only [dif_neg ha, bind, Except.bind]

theorem pushBlock_eq (opa : Byte) (s : State) :
    pushBlock opa s =
      if s.regs[7] = 0 then .error (.stackOverflow 0)
      else if h : opa.toNat < 8 then
        .ok { s with
          regs := s.regs.set 7 (s.regs[7] - 1)
          mem := Memory.write s.mem (s.regs[7] - 1).toNat (s.regs.set 7 (s.regs[7] - 1))[opa.toNat]
          pc := s.pc + 2 }
      else .error (.regOutOfBounds opa.toNat) := by
  unfold pushBlock State.readOperand
  rw [State.spDecrement_eq]
  by_cases h0 : s.regs[7] = 0
  · simp only [if_pos h0]; rfl
  · simp only [if_neg h0, bind, Except.bind, State.regRead_eq]
    by_cases h : opa.toNat < 8
    · simp only [dif_pos h, State.memWrite_byte]
      simp [State.sp_eq, State.advance, pure, Except.pure]
    · simp only [dif_neg h]

theorem popBlock_eq (opa : Byte) (s : State) :
    popBlock opa s =
      if h : opa.toNat < 8 then
        let regs := s.regs.set opa.toNat (Memory.read s.mem s.regs[7].toNat)
        if regs[7] = 255 then .error (.stackUnderflow 255)
        else .ok { s with regs := regs.set 7 (regs[7] + 1), pc := s.pc + 2 }
      else .error (.regOutOfBounds opa.toNat) := by
  unfold popBlock State.writeOperand
  rw [State.memRead_byte]
  simp only [bind, Except.bind, State.regWrite_eq, State.sp_eq]
  by_cases h : opa.toNat < 8
  · simp only [dif_pos h, State.spIncrement_eq]
    by_cases h255 : (s.regs.set opa.toNat (Memory.read s.mem s.regs[7].toNat))[7] = 255
    · simp only [if_pos h255]
    · simp only [if_neg h255]; rfl
  · simp only [dif_neg h]

theorem callBlock_eq (opa : Byte) (s : State) :
    callBlock opa s =
      if s.regs[7] = 0 then .error (.stackOverflow 0)
      else if h : opa.toNat < 8 then
        .ok { s with
          regs := s.regs.set 7 (s.regs[7] - 1)
          mem := Memory.write s.mem (s.regs[7] - 1).toNat (BitVec.ofNat 8 (s.pc.toNat + 2))
          pc := (s.regs.set 7 (s.regs[7] - 1))[opa.toNat].setWidth 9 }
      else .error (.regOutOfBounds opa.toNat) := by
  unfold callBlock State.readOperand State.returnAddress
  rw [State.spDecrement_eq]
  by_cases h0 : s.regs[7] = 0
  · simp only [if_pos h0]; rfl
  · simp only [if_neg h0, bind, Except.bind, State.memWrite_byte, State.regRead_eq]
    by_cases h : opa.toNat < 8
    · simp [h, State.sp_eq, State.jumpTo, pure, Except.pure]
    · simp only [dif_neg h]

theorem retBlock_eq (s : State) :
    retBlock s =
      if s.regs[7] = 255 then .error (.stackUnderflow 255)
      else .ok { s with
        regs := s.regs.set 7 (s.regs[7] + 1)
        pc := (Memory.read s.mem s.regs[7].toNat).setWidth 9 } := by
  unfold retBlock
  rw [State.memRead_byte]
  simp only [bind, Except.bind, State.spIncrement_eq, State.sp_eq]
  by_cases h : s.regs[7] = 255
  · simp only [if_pos h]
  · simp only [if_neg h]; rfl

theorem jumpBlock_eq (opa : Byte) (s : State) :
    jumpBlock opa s =
      if h : opa.toNat < 8 then .ok { s with pc := s.regs[opa.toNat].setWidth 9 }
      else .error (.regOutOfBounds opa.toNat) := by
  unfold jumpBlock State.readOperand
  rw [State.regRead_eq]
  split_ifs <;> rfl

theorem branchBlock_eq (taken : Bool) (opa : Byte) (s : State) :
    branchBlock taken opa s =
      if taken = true then
        if h : opa.toNat < 8 then .ok { s with pc := s.regs[opa.toNat].setWidth 9 }
        else .error (.regOutOfBounds opa.toNat)
      else .ok { s with pc := s.pc + 2 } := by
  unfold branchBlock
  rw [jumpBlock_eq]
  cases taken <;> rfl

end Sys2Proof.Machine
end

