-- ==== Sys2Proof/Laws/Decode.lean ====
section
/-! SUPPORT. The laws of the decoder's lookup, and what legality of a configuration says. -/

namespace Sys2Proof

theorem Mnemonic.mem_all (m : Mnemonic) : m ∈ Mnemonic.all := by
  cases m <;> decide

/-- R85 and R88 as propositions. -/
theorem Config.legal_iff (cfg : Config) :
    cfg.legal = true ↔
      (∀ m, cfg.dispatches m = true → cfg.opc.byte m ≠ 0) ∧
        ∀ m m', cfg.dispatches m = true → cfg.dispatches m' = true → cfg.opc.byte m = cfg.opc.byte m' → m = m' := by
  simp only [Config.legal, List.all_eq_true, Bool.or_eq_true, Bool.and_eq_true, Bool.not_eq_true', bne_iff_ne, ne_eq,
    beq_iff_eq]
  constructor
  · intro h
    refine ⟨fun m hm => ?_, fun m m' hm hm' hb => ?_⟩
    · rcases h m (Mnemonic.mem_all m) with h' | h'
      · simp [hm] at h'
      · exact h'.1
    · rcases h m (Mnemonic.mem_all m) with h' | h'
      · simp [hm] at h'
      · rcases h'.2 m' (Mnemonic.mem_all m') with (h'' | h'') | h''
        · simp [hm'] at h''
        · exact absurd hb.symm h''
        · exact h''.symm
  · rintro ⟨h0, hinj⟩ m -
    by_cases hm : cfg.dispatches m = true
    · refine .inr ⟨h0 m hm, fun m' _ => ?_⟩
      by_cases hm' : cfg.dispatches m' = true
      · by_cases hb : cfg.opc.byte m' = cfg.opc.byte m
        · exact .inr (hinj m m' hm hm' hb.symm).symm
        · exact .inl (.inr hb)
      · exact .inl (.inl (by simpa using hm'))
    · exact .inl (by simpa using hm)

/-- What the lookup finds is dispatched and has that byte. -/
theorem Config.lookup_some {cfg : Config} {ir : Byte} {m : Mnemonic} (h : cfg.lookup ir = some m) :
    cfg.dispatches m = true ∧ cfg.opc.byte m = ir := by
  simpa using List.find?_some h

/-- The lookup misses exactly when no dispatched mnemonic has that byte (R84). -/
theorem Config.lookup_none {cfg : Config} {ir : Byte} :
    cfg.lookup ir = none ↔ ∀ m, cfg.dispatches m = true → cfg.opc.byte m ≠ ir := by
  simp [Config.lookup, List.find?_eq_none, Mnemonic.mem_all]

/-- In a legal configuration the lookup of a dispatched opcode byte gives its mnemonic. -/
theorem Config.lookup_byte {cfg : Config} (hl : cfg.legal = true) {m : Mnemonic} (hm : cfg.dispatches m = true) :
    cfg.lookup (cfg.opc.byte m) = some m := by
  cases h : cfg.lookup (cfg.opc.byte m) with
  | none => exact absurd rfl (Config.lookup_none.mp h m hm)
  | some m' =>
    obtain ⟨hm', hb⟩ := Config.lookup_some h
    rw [((Config.legal_iff cfg).mp hl).2 m' m hm' hm hb]

theorem decode_of_lookup {cfg : Config} {ir : Byte} {m : Mnemonic} (h : cfg.lookup ir = some m) (opa opb : Byte) :
    decode cfg ir opa opb = .ok (m.instr opa opb) := by
  simp [decode, h]

theorem decode_of_lookup_none {cfg : Config} {ir : Byte} (h : cfg.lookup ir = none) (opa opb : Byte) :
    decode cfg ir opa opb = .error (.unknownInstruction ir) := by
  simp [decode, h]

@[simp] theorem Mnemonic.mnemonic_instr (m : Mnemonic) (opa opb : Byte) : (m.instr opa opb).mnemonic = m := by
  cases m <;> rfl

end Sys2Proof
end

