-- ==== Sys2Proof/Laws/Exec.lean ====
section
/-! SUPPORT. Every instruction as the completion of its block, and everything an instruction can do said once: `Effect`
lists the states an instruction completes in, `Raises` the faults it takes, so that a proof over all instructions is one
case split. -/

namespace Sys2Proof.Machine

/-- The pseudocode block of each instruction (files 41 to 45 of the spec). -/
def blockOf : Instr → State → Except Raise State
  | .hlt, s => .ok { s with halted := true, pc := s.pc + 1 }
  | .ldi opa imm, s => ldiBlock opa imm s
  | .prn opa, s => prnBlock opa s
  | .mul opa opb, s => aluBlock .MUL opa opb s
  | .add opa opb, s => aluBlock .ADD opa opb s
  | .cmp opa opb, s => aluBlock .CMP opa opb s
  | .push opa, s => pushBlock opa s
  | .pop opa, s => popBlock opa s
  | .call opa, s => callBlock opa s
  | .ret, s => retBlock s
  | .jmp opa, s => jumpBlock opa s
  | .jeq opa, s => branchBlock s.flags.takesJeq opa s
  | .jne opa, s => branchBlock s.flags.takesJne opa s
  | .jlt opa, s => branchBlock s.flags.takesJlt opa s
  | .jgt opa, s => branchBlock s.flags.takesJgt opa s
  | .jge opa, s => branchBlock s.flags.takesJge opa s
  | .sub opa opb, s => aluBlock .SUB opa opb s
  | .div opa opb, s => aluBlock .DIV opa opb s
  | .mod opa opb, s => aluBlock .MOD opa opb s
  | .and opa opb, s => aluBlock .AND opa opb s
  | .xor opa opb, s => aluBlock .XOR opa opb s

theorem exec_eq_complete (i : Instr) (s : State) : exec i s = s.complete (blockOf i s) := by
  cases i <;> rfl

/-- An instruction always answers a next state: its block's, or the fault taken where it began (R12). -/
theorem exec_cases (i : Instr) (s t : State) :
    exec i s = .next t ↔ blockOf i s = .ok t ∨ ∃ k, blockOf i s = .error k ∧ t = s.raise k := by
  rw [exec_eq_complete, State.complete_cases]

theorem exec_answers_next (i : Instr) (s : State) : ∃ t, exec i s = .next t := by
  rw [exec_eq_complete]
  cases blockOf i s with
  | ok t => exact ⟨t, rfl⟩
  | error k => exact ⟨s.raise k, rfl⟩

/-! ### What an instruction can do -/

/-- The ALU operation and operand bytes of the seven instructions that store an ALU value (R149). -/
def aluForm : Instr → Option (AluOp × Byte × Byte)
  | .mul opa opb => some (.MUL, opa, opb)
  | .add opa opb => some (.ADD, opa, opb)
  | .sub opa opb => some (.SUB, opa, opb)
  | .div opa opb => some (.DIV, opa, opb)
  | .mod opa opb => some (.MOD, opa, opb)
  | .and opa opb => some (.AND, opa, opb)
  | .xor opa opb => some (.XOR, opa, opb)
  | .hlt | .ldi _ _ | .prn _ | .cmp _ _ | .push _ | .pop _ | .call _ | .ret
  | .jmp _ | .jeq _ | .jne _ | .jlt _ | .jgt _ | .jge _ => none

/-- Whether a branch is taken, and its operand byte (R180 to R185). -/
def branchForm (f : Flags) : Instr → Option (Bool × Byte)
  | .jmp opa => some (true, opa)
  | .jeq opa => some (f.takesJeq, opa)
  | .jne opa => some (f.takesJne, opa)
  | .jlt opa => some (f.takesJlt, opa)
  | .jgt opa => some (f.takesJgt, opa)
  | .jge opa => some (f.takesJge, opa)
  | .hlt | .ldi _ _ | .prn _ | .mul _ _ | .add _ _ | .cmp _ _ | .push _ | .pop _ | .call _ | .ret
  | .sub _ _ | .div _ _ | .mod _ _ | .and _ _ | .xor _ _ => none

/-- The states in which an instruction completes. -/
inductive Effect (s : State) : Instr → State → Prop where
  | hlt : Effect s .hlt { s with halted := true, pc := s.pc + 1 }
  | ldi {opa imm : Byte} (h : opa.toNat < 8) :
      Effect s (.ldi opa imm) { s with regs := s.regs.set opa.toNat imm, pc := s.pc + 3 }
  | prn {opa : Byte} (h : opa.toNat < 8) :
      Effect s (.prn opa) { s with out := s.out ++ [s.regs[opa.toNat]], pc := s.pc + 2 }
  | alu {i : Instr} {op : AluOp} {opa opb v : Byte} (hi : aluForm i = some (op, opa, opb)) (ha : opa.toNat < 8)
      (hb : opb.toNat < 8) (hv : alu op s.regs[opa.toNat] s.regs[opb.toNat] = .value v) :
      Effect s i { s with regs := s.regs.set opa.toNat v, pc := s.pc + 3 }
  | cmp {opa opb : Byte} (ha : opa.toNat < 8) (hb : opb.toNat < 8) :
      Effect s (.cmp opa opb) { s with flags := compareFlags s.regs[opa.toNat] s.regs[opb.toNat], pc := s.pc + 3 }
  | push {opa : Byte} (h : opa.toNat < 8) (hsp : s.regs[7] ≠ 0) :
      Effect s (.push opa) { s with
        regs := s.regs.set 7 (s.regs[7] - 1)
        mem := Memory.write s.mem (s.regs[7] - 1).toNat (s.regs.set 7 (s.regs[7] - 1))[opa.toNat]
        pc := s.pc + 2 }
  | pop {opa : Byte} (h : opa.toNat < 8)
      (hsp : (s.regs.set opa.toNat (Memory.read s.mem s.regs[7].toNat))[7] ≠ 255) :
      Effect s (.pop opa) { s with
        regs := (s.regs.set opa.toNat (Memory.read s.mem s.regs[7].toNat)).set 7
          ((s.regs.set opa.toNat (Memory.read s.mem s.regs[7].toNat))[7] + 1)
        pc := s.pc + 2 }
  | call {opa : Byte} (h : opa.toNat < 8) (hsp : s.regs[7] ≠ 0) :
      Effect s (.call opa) { s with
        regs := s.regs.set 7 (s.regs[7] - 1)
        mem := Memory.write s.mem (s.regs[7] - 1).toNat (BitVec.ofNat 8 (s.pc.toNat + 2))
        pc := (s.regs.set 7 (s.regs[7] - 1))[opa.toNat].setWidth 9 }
  | ret (hsp : s.regs[7] ≠ 255) :
      Effect s .ret { s with
        regs := s.regs.set 7 (s.regs[7] + 1)
        pc := (Memory.read s.mem s.regs[7].toNat).setWidth 9 }
  | jump {i : Instr} {opa : Byte} (hi : branchForm s.flags i = some (true, opa)) (h : opa.toNat < 8) :
      Effect s i { s with pc := s.regs[opa.toNat].setWidth 9 }
  | fallThrough {i : Instr} {opa : Byte} (hi : branchForm s.flags i = some (false, opa)) :
      Effect s i { s with pc := s.pc + 2 }

/-- The faults an instruction takes. -/
inductive Raises (s : State) : Instr → Raise → Prop where
  | badRegister {i : Instr} {b : Byte} (hb : b ∈ i.regOperands) (h : 8 ≤ b.toNat) :
      Raises s i (.regOutOfBounds b.toNat)
  | zeroDivisor {i : Instr} {op : AluOp} {opa opb : Byte} (hi : aluForm i = some (op, opa, opb))
      (hop : op = .DIV ∨ op = .MOD) (ha : opa.toNat < 8) (hb : opb.toNat < 8) (h0 : s.regs[opb.toNat] = 0) :
      Raises s i (.divisionByZero s.regs[opa.toNat])
  | overflow {i : Instr} (hi : i.mnemonic = .PUSH ∨ i.mnemonic = .CALL) (h : s.regs[7] = 0) :
      Raises s i (.stackOverflow 0)
  | underflow {i : Instr} (hi : i.mnemonic = .POP ∨ i.mnemonic = .RET) : Raises s i (.stackUnderflow 255)

theorem alu_divisionByZero {op : AluOp} {a b d : Byte} :
    alu op a b = .divisionByZero d ↔ (op = .DIV ∨ op = .MOD) ∧ b = 0 ∧ d = a := by
  cases op <;> by_cases hb : b = 0 <;>
    simp only [alu, hb, if_true, if_false, reduceCtorEq, AluResult.divisionByZero.injEq, true_or, or_true, or_self,
      false_and, true_and, and_false]
  all_goals exact eq_comm

/-- What an ALU instruction that stores a value can do (R149). -/
theorem aluForm_outcome {i : Instr} {op : AluOp} {opa opb : Byte} (hi : aluForm i = some (op, opa, opb)) (s : State) :
    (∀ t, aluBlock op opa opb s = .ok t → Effect s i t) ∧ ∀ k, aluBlock op opa opb s = .error k → Raises s i k := by
  have hops : i.regOperands = [opa, opb] := by
    cases i <;> simp_all [aluForm, Instr.regOperands]
  have hcmp : ∀ a b f, alu op a b ≠ .flags f := by
    intro a b f
    cases i <;> simp only [aluForm, reduceCtorEq, Option.some.injEq, Prod.mk.injEq] at hi <;>
      obtain ⟨rfl, -, -⟩ := hi <;> simp only [alu] <;> (try split_ifs) <;> exact AluResult.noConfusion
  rw [aluBlock_eq]
  by_cases ha : opa.toNat < 8
  · by_cases hb : opb.toNat < 8
    · rw [dif_pos ha, dif_pos hb]
      cases hv : alu op s.regs[opa.toNat] s.regs[opb.toNat] with
      | value v =>
        exact ⟨fun t h => by cases h; exact .alu hi ha hb hv, fun k h => by cases h⟩
      | flags f => exact absurd hv (hcmp _ _ f)
      | divisionByZero d =>
        obtain ⟨hop, h0, rfl⟩ := alu_divisionByZero.mp hv
        exact ⟨fun t h => (by cases h), fun k h => by cases h; exact .zeroDivisor hi hop ha hb h0⟩
    · rw [dif_pos ha, dif_neg hb]
      exact ⟨fun t h => (by cases h), fun k h => by cases h; exact .badRegister (by simp [hops]) (by omega)⟩
  · rw [dif_neg ha]
    exact ⟨fun t h => (by cases h), fun k h => by cases h; exact .badRegister (by simp [hops]) (by omega)⟩

/-- What a branch can do (R186, R187). -/
theorem branchForm_outcome {i : Instr} {s : State} {taken : Bool} {opa : Byte}
    (hi : branchForm s.flags i = some (taken, opa)) :
    (∀ t, branchBlock taken opa s = .ok t → Effect s i t) ∧ ∀ k, branchBlock taken opa s = .error k → Raises s i k := by
  have hops : i.regOperands = [opa] := by
    cases i <;> simp_all [branchForm, Instr.regOperands]
  rw [branchBlock_eq]
  cases taken with
  | false =>
    rw [if_neg Bool.false_ne_true]
    exact ⟨fun t h => by cases h; exact .fallThrough hi, fun k h => by cases h⟩
  | true =>
    rw [if_pos rfl]
    by_cases h : opa.toNat < 8
    · rw [dif_pos h]
      exact ⟨fun t h' => by cases h'; exact .jump hi h, fun k h' => by cases h'⟩
    · rw [dif_neg h]
      exact ⟨fun t h' => (by cases h'), fun k h' => by cases h'; exact .badRegister (by simp [hops]) (by omega)⟩

/-- Everything an instruction's block can answer. -/
theorem blockOf_outcome (i : Instr) (s : State) :
    (∀ t, blockOf i s = .ok t → Effect s i t) ∧ ∀ k, blockOf i s = .error k → Raises s i k := by
  cases i with
  | hlt => exact ⟨fun t h => by cases h; exact .hlt, fun k h => by cases h⟩
  | ldi opa imm =>
    simp only [blockOf, ldiBlock_eq]
    split_ifs with h
    · exact ⟨fun t h' => by cases h'; exact .ldi h, fun k h' => by cases h'⟩
    · exact ⟨fun t h' => (by cases h'), fun k h' => by
        cases h'; exact .badRegister (by simp [Instr.regOperands]) (by omega)⟩
  | prn opa =>
    simp only [blockOf, prnBlock_eq]
    split_ifs with h
    · exact ⟨fun t h' => by cases h'; exact .prn h, fun k h' => by cases h'⟩
    · exact ⟨fun t h' => (by cases h'), fun k h' => by
        cases h'; exact .badRegister (by simp [Instr.regOperands]) (by omega)⟩
  | cmp opa opb =>
    simp only [blockOf, aluBlock_eq]
    split_ifs with ha hb
    · exact ⟨fun t h' => by cases h'; exact .cmp ha hb, fun k h' => by cases h'⟩
    · exact ⟨fun t h' => (by cases h'), fun k h' => by
        cases h'; exact .badRegister (by simp [Instr.regOperands]) (by omega)⟩
    · exact ⟨fun t h' => (by cases h'), fun k h' => by
        cases h'; exact .badRegister (by simp [Instr.regOperands]) (by omega)⟩
  | push opa =>
    simp only [blockOf, pushBlock_eq]
    split_ifs with h0 h
    · exact ⟨fun t h' => (by cases h'), fun k h' => by cases h'; exact .overflow (.inl rfl) h0⟩
    · exact ⟨fun t h' => by cases h'; exact .push h h0, fun k h' => by cases h'⟩
    · exact ⟨fun t h' => (by cases h'), fun k h' => by
        cases h'; exact .badRegister (by simp [Instr.regOperands]) (by omega)⟩
  | pop opa =>
    simp only [blockOf, popBlock_eq]
    split_ifs with h h255
    · exact ⟨fun t h' => (by cases h'), fun k h' => by cases h'; exact .underflow (.inl rfl)⟩
    · exact ⟨fun t h' => by cases h'; exact .pop h h255, fun k h' => by cases h'⟩
    · exact ⟨fun t h' => (by cases h'), fun k h' => by
        cases h'; exact .badRegister (by simp [Instr.regOperands]) (by omega)⟩
  | call opa =>
    simp only [blockOf, callBlock_eq]
    split_ifs with h0 h
    · exact ⟨fun t h' => (by cases h'), fun k h' => by cases h'; exact .overflow (.inr rfl) h0⟩
    · exact ⟨fun t h' => by cases h'; exact .call h h0, fun k h' => by cases h'⟩
    · exact ⟨fun t h' => (by cases h'), fun k h' => by
        cases h'; exact .badRegister (by simp [Instr.regOperands]) (by omega)⟩
  | ret =>
    simp only [blockOf, retBlock_eq]
    split_ifs with h255
    · exact ⟨fun t h' => (by cases h'), fun k h' => by cases h'; exact .underflow (.inr rfl)⟩
    · exact ⟨fun t h' => by cases h'; exact .ret h255, fun k h' => by cases h'⟩
  | jmp opa =>
    exact branchForm_outcome (i := .jmp opa) (s := s) (taken := true) rfl
  | jeq opa => exact branchForm_outcome (i := .jeq opa) rfl
  | jne opa => exact branchForm_outcome (i := .jne opa) rfl
  | jlt opa => exact branchForm_outcome (i := .jlt opa) rfl
  | jgt opa => exact branchForm_outcome (i := .jgt opa) rfl
  | jge opa => exact branchForm_outcome (i := .jge opa) rfl
  | mul opa opb => exact aluForm_outcome (i := .mul opa opb) rfl s
  | add opa opb => exact aluForm_outcome (i := .add opa opb) rfl s
  | sub opa opb => exact aluForm_outcome (i := .sub opa opb) rfl s
  | div opa opb => exact aluForm_outcome (i := .div opa opb) rfl s
  | mod opa opb => exact aluForm_outcome (i := .mod opa opb) rfl s
  | and opa opb => exact aluForm_outcome (i := .and opa opb) rfl s
  | xor opa opb => exact aluForm_outcome (i := .xor opa opb) rfl s

/-- The inversion of `exec`: it completes, or it takes a fault in the state it began in. -/
theorem exec_inversion {i : Instr} {s t : State} (h : exec i s = .next t) :
    Effect s i t ∨ ∃ k, Raises s i k ∧ t = s.raise k := by
  rcases (exec_cases i s t).mp h with h | ⟨k, hk, ht⟩
  · exact .inl ((blockOf_outcome i s).1 t h)
  · exact .inr ⟨k, (blockOf_outcome i s).2 k hk, ht⟩

/-- Completing touches neither the configuration nor the fault latch. -/
theorem Effect.keeps_latch {s t : State} {i : Instr} (h : Effect s i t) :
    t.cfg = s.cfg ∧ t.fault = s.fault ∧ t.faultInfo = s.faultInfo := by
  cases h <;> exact ⟨rfl, rfl, rfl⟩

end Sys2Proof.Machine
end

