-- ==== Sys2Proof/Laws/PerInstr.lean ====
section
/-! SUPPORT. Facts about instructions as syntax, one lemma per constructor. EncodeShape: an encoding is the opcode byte
and then `arity` operand bytes, so its length is `1 + arity` (spec 30_encoding.md R80, R81, R83). -/

namespace Sys2Proof.Laws.EncodeShape

/-- The encoding of `i` is its opcode byte and then as many operand bytes as its arity says. -/
def Statement (i : Instr) : Prop :=
  ∀ cfg : Config, (encode cfg i).head? = some (cfg.opc.byte i.mnemonic) ∧
    (encode cfg i).tail = i.operands ∧ (encode cfg i).length = 1 + i.mnemonic.arity

theorem hlt : Statement .hlt := fun _ => ⟨rfl, rfl, rfl⟩

theorem ldi (opa imm : Byte) : Statement (.ldi opa imm) := fun _ => ⟨rfl, rfl, rfl⟩

theorem prn (opa : Byte) : Statement (.prn opa) := fun _ => ⟨rfl, rfl, rfl⟩

theorem mul (opa opb : Byte) : Statement (.mul opa opb) := fun _ => ⟨rfl, rfl, rfl⟩

theorem add (opa opb : Byte) : Statement (.add opa opb) := fun _ => ⟨rfl, rfl, rfl⟩

theorem cmp (opa opb : Byte) : Statement (.cmp opa opb) := fun _ => ⟨rfl, rfl, rfl⟩

theorem push (opa : Byte) : Statement (.push opa) := fun _ => ⟨rfl, rfl, rfl⟩

theorem pop (opa : Byte) : Statement (.pop opa) := fun _ => ⟨rfl, rfl, rfl⟩

theorem call (opa : Byte) : Statement (.call opa) := fun _ => ⟨rfl, rfl, rfl⟩

theorem ret : Statement .ret := fun _ => ⟨rfl, rfl, rfl⟩

theorem jmp (opa : Byte) : Statement (.jmp opa) := fun _ => ⟨rfl, rfl, rfl⟩

theorem jeq (opa : Byte) : Statement (.jeq opa) := fun _ => ⟨rfl, rfl, rfl⟩

theorem jne (opa : Byte) : Statement (.jne opa) := fun _ => ⟨rfl, rfl, rfl⟩

theorem jlt (opa : Byte) : Statement (.jlt opa) := fun _ => ⟨rfl, rfl, rfl⟩

theorem jgt (opa : Byte) : Statement (.jgt opa) := fun _ => ⟨rfl, rfl, rfl⟩

theorem jge (opa : Byte) : Statement (.jge opa) := fun _ => ⟨rfl, rfl, rfl⟩

theorem sub (opa opb : Byte) : Statement (.sub opa opb) := fun _ => ⟨rfl, rfl, rfl⟩

theorem div (opa opb : Byte) : Statement (.div opa opb) := fun _ => ⟨rfl, rfl, rfl⟩

theorem mod (opa opb : Byte) : Statement (.mod opa opb) := fun _ => ⟨rfl, rfl, rfl⟩

theorem and (opa opb : Byte) : Statement (.and opa opb) := fun _ => ⟨rfl, rfl, rfl⟩

theorem xor (opa opb : Byte) : Statement (.xor opa opb) := fun _ => ⟨rfl, rfl, rfl⟩

end Sys2Proof.Laws.EncodeShape
end

