-- ==== Sys2Proof/Laws/Step.lean ====
section
/-! SUPPORT. Everything a step can do (spec 40_fetch_decode_execute.md R106, R107, R112), said once. -/

namespace Sys2Proof.Machine

/-- The step of a running state: a fetch beyond the address space, an unknown opcode byte, or the instruction. -/
theorem step_running {s : State} (h : s.running) :
    step s =
      if s.pc.toNat + 2 < 256 then
        match decode s.cfg (Memory.read s.mem s.pc.toNat) (Memory.read s.mem (s.pc.toNat + 1))
            (Memory.read s.mem (s.pc.toNat + 2)) with
        | .error (.unknownInstruction b) => .next (s.raise (.unknownInstruction b))
        | .ok i => exec i s
      else .next (s.raise (.memOutOfBounds (max s.pc.toNat 256))) := by
  obtain ⟨hh, hf⟩ := h
  unfold step
  simp only [hh, hf, Bool.false_eq_true, ne_eq, not_true_eq_false, ite_false, State.fetch_eq]
  by_cases h2 : s.pc.toNat + 2 < 256
  · simp only [if_pos h2]; first | done | rfl
  · simp only [if_neg h2]

theorem step_halted {s : State} (h : s.halted = true) : step s = .fault .halted := by
  simp [step, h]

theorem step_faulted {s : State} (hh : s.halted = false) (h : s.fault ≠ .noFault) : step s = .fault .faulted := by
  simp [step, hh, h]

/-- A step that answers a next state was taken from a running state, and is a raise in it or an instruction's. -/
theorem step_cases {s t : State} (h : step s = .next t) :
    s.running ∧
      ((∃ k, t = s.raise k ∧ (k = .memOutOfBounds (max s.pc.toNat 256) ∧ 254 ≤ s.pc.toNat ∨
          k = .unknownInstruction (Memory.read s.mem s.pc.toNat) ∧ s.pc.toNat < 254)) ∨
        ∃ i, s.pc.toNat < 254 ∧ decode s.cfg (Memory.read s.mem s.pc.toNat) (Memory.read s.mem (s.pc.toNat + 1))
            (Memory.read s.mem (s.pc.toNat + 2)) = .ok i ∧ exec i s = .next t) := by
  by_cases hh : s.halted = true
  · rw [step_halted hh] at h; cases h
  have hh' : s.halted = false := by simpa using hh
  by_cases hf : s.fault = .noFault
  swap
  · rw [step_faulted hh' hf] at h; cases h
  refine ⟨⟨hh', hf⟩, ?_⟩
  rw [step_running ⟨hh', hf⟩] at h
  by_cases h2 : s.pc.toNat + 2 < 256
  · rw [if_pos h2] at h
    cases hl : s.cfg.lookup (Memory.read s.mem s.pc.toNat) with
    | none =>
      rw [decode_of_lookup_none hl] at h
      exact .inl ⟨_, (Host.Outcome.next.inj h).symm, .inr ⟨rfl, by omega⟩⟩
    | some m =>
      have hd := decode_of_lookup hl (Memory.read s.mem (s.pc.toNat + 1)) (Memory.read s.mem (s.pc.toNat + 2))
      rw [hd] at h
      exact .inr ⟨_, by omega, hd, h⟩
  · rw [if_neg h2] at h
    exact .inl ⟨_, (Host.Outcome.next.inj h).symm, .inl ⟨rfl, by omega⟩⟩

/-- A running state always has a step (R100). -/
theorem step_answers_next {s : State} (h : s.running) : ∃ t, step s = .next t := by
  rw [step_running h]
  split_ifs
  · split
    · exact ⟨_, rfl⟩
    · exact exec_answers_next _ _
  · exact ⟨_, rfl⟩

/-- No step is refused: every instruction has its meaning. -/
theorem step_ne_refused (s : State) (r : Refusal) : step s ≠ .refused r := by
  by_cases hh : s.halted = true
  · rw [step_halted hh]; exact fun h => nomatch h
  have hh' : s.halted = false := by simpa using hh
  by_cases hf : s.fault = .noFault
  · obtain ⟨t, ht⟩ := step_answers_next ⟨hh', hf⟩
    rw [ht]; exact fun h => nomatch h
  · rw [step_faulted hh' hf]; exact fun h => nomatch h

/-- Runs of the host's machine, one step at a time, over the model's own names. -/
theorem core_run_zero (s : State) : Sys2Proof.core.run 0 s = .next s := rfl

theorem core_run_succ (n : Nat) (s : State) :
    Sys2Proof.core.run (n + 1) s =
      (match step s with
      | .next t => Sys2Proof.core.run n t
      | .fault r => .fault r
      | .refused r => .refused r) := by
  have e : Sys2Proof.core.step s = step s := rfl
  simp only [Host.Core.run, e]
  cases step s <;> rfl

/-- What every step keeps, every run keeps. -/
theorem core_run_induction {P : State → State → Prop} (hrefl : ∀ s, P s s)
    (hstep : ∀ s t u, P s t → step t = .next u → P s u) (n : Nat) (s t : State)
    (h : Sys2Proof.core.run n s = .next t) : P s t := by
  have key : ∀ (n : Nat) (s₀ u : State), P s₀ u → Sys2Proof.core.run n u = .next t → P s₀ t := by
    intro n
    induction n with
    | zero => intro s₀ u hu hr; cases hr; exact hu
    | succ n ih =>
      intro s₀ u hu hr
      rw [core_run_succ] at hr
      cases hs : step u with
      | next v => rw [hs] at hr; exact ih s₀ v (hstep s₀ u v hu hs) hr
      | fault r => rw [hs] at hr; cases hr
      | refused r => rw [hs] at hr; cases hr
  exact key n s s (hrefl s) h

end Sys2Proof.Machine
end

