-- ==== Sys2Proof/Tests/Slice0.lean ====
section
/-! SUPPORT. The model's own tests. Expected results are the worked examples and vectors of the spec (95_test_vectors.md,
and the Example lines of files 41 to 45); the words of the decode tests are written out from 30_encoding.md R81, R86 and
R88. Then the ill-formed terms each check refuses, and for each obligation with hypotheses a state that meets them. -/

namespace Sys2Proof.Tests

open Sys2Proof.Machine

/-! ### Helpers -/

/-- A state like reset's with other registers, flags, `pc` and bytes in memory. -/
def start (pc : Pc) (regs : Vector Byte 8) (flags : Flags) (mem : List Host.Cell) : State :=
  { State.reset with pc := pc, regs := regs, flags := flags, mem := mem }

/-- Registers R0, R1, R2 and SP, the others zero. -/
def regs (r0 r1 r2 sp : Byte) : Vector Byte 8 :=
  #v[r0, r1, r2, 0, 0, 0, 0, sp]

def noFlags : Flags := { E := false, G := false, L := false }
def flagE : Flags := { E := true, G := false, L := false }
def flagG : Flags := { E := false, G := true, L := false }
def flagL : Flags := { E := false, G := false, L := true }

/-- The outcome is a next state of which `p` holds. -/
def nextIs (o : Result) (p : State → Bool) : Bool :=
  match o with
  | .next t => p t
  | .fault _ | .refused _ => false

/-- The outcome is the fault taken in `s`, and nothing else changed. -/
def raises (o : Result) (s : State) (k : FaultKind) (d : FaultDetail) : Bool :=
  nextIs o fun t => decide (t = s.latched k d)

/-! ### Decoding, bit by bit (R81, R86, R88): the opcode byte, then the operand bytes above it -/

theorem test_decode_hlt : decodeTableWord 8 0b00000001 = some .hlt := by decide
theorem test_decode_ldi : decodeTableWord 24 0b00001000_00000000_10000010 = some (.ldi 0 8) := by decide
theorem test_decode_prn : decodeTableWord 16 0b00000111_01000111 = some (.prn 7) := by decide
theorem test_decode_mul : decodeTableWord 24 0b00000001_00000000_10100010 = some (.mul 0 1) := by decide
theorem test_decode_add : decodeTableWord 24 0b00000001_00000010_10100000 = some (.add 2 1) := by decide
theorem test_decode_cmp : decodeTableWord 24 0b00000011_00000000_10100111 = some (.cmp 0 3) := by decide
theorem test_decode_push : decodeTableWord 16 0b00000110_01000101 = some (.push 6) := by decide
theorem test_decode_pop : decodeTableWord 16 0b00000001_01000110 = some (.pop 1) := by decide
theorem test_decode_call : decodeTableWord 16 0b00000001_01010000 = some (.call 1) := by decide
theorem test_decode_ret : decodeTableWord 8 0b00010001 = some .ret := by decide
theorem test_decode_jmp : decodeTableWord 16 0b11111111_01010100 = some (.jmp 255) := by decide
theorem test_decode_jeq : decodeTableWord 16 0b00000010_01010101 = some (.jeq 2) := by decide
theorem test_decode_jne : decodeTableWord 16 0b00000010_01010110 = some (.jne 2) := by decide
theorem test_decode_jlt : decodeTableWord 16 0b00000010_01011000 = some (.jlt 2) := by decide
theorem test_decode_jgt : decodeTableWord 16 0b00000010_01010111 = some (.jgt 2) := by decide
theorem test_decode_jge : decodeTableWord 16 0b00000010_01011010 = some (.jge 2) := by decide
theorem test_decode_sub : decodeTableWord 24 0b00000011_00000010_10100001 = some (.sub 2 3) := by decide
theorem test_decode_div : decodeTableWord 24 0b00000001_00000000_10100011 = some (.div 0 1) := by decide
theorem test_decode_mod : decodeTableWord 24 0b00000001_00000000_10100100 = some (.mod 0 1) := by decide
theorem test_decode_and : decodeTableWord 24 0b00000001_00000000_10101000 = some (.and 0 1) := by decide
theorem test_decode_xor : decodeTableWord 24 0b00000001_00000000_10101011 = some (.xor 0 1) := by decide

/-- V74, V75, V46: bytes that are no instruction. -/
theorem test_decode_rejects :
    decode defaultConfig 0x00 0 0 = .error (.unknownInstruction 0x00) ∧
      decode defaultConfig 0xFF 0 0 = .error (.unknownInstruction 0xFF) ∧
      decode defaultConfig 0xA1 0 1 = .error (.unknownInstruction 0xA1) := ⟨rfl, rfl, rfl⟩

/-- The first program of 95_test_vectors.md, P1, encoded. -/
theorem test_encode_P1 :
    [Instr.ldi 0 8, .ldi 1 9, .mul 0 1, .prn 0, .hlt].flatMap (encode defaultConfig) =
      [0x82, 0x00, 0x08, 0x82, 0x01, 0x09, 0xA2, 0x00, 0x01, 0x47, 0x00, 0x01] := by decide

/-- The notation of R93, on the source's example. -/
theorem test_text :
    [Instr.ldi 0 8, .mul 0 1, .prn 0, .hlt].map Instr.text = ["LDI R0,8", "MUL R0,R1", "PRN R0", "HLT"] := by decide

/-! ### Ill-formed terms are refused -/

theorem test_illformed_optional : (Instr.sub 0 1).wellFormed defaultConfig = false := by decide
theorem test_illformed_zero_opcode :
    Config.legal { defaultConfig with opc := { defaultOpc with ret := 0x00 } } = false := by decide
theorem test_illformed_duplicate_opcode :
    Config.legal { defaultConfig with opc := { defaultOpc with jlt := 0x5A } } = false := by decide
theorem test_illformed_optional_duplicate :
    Config.legal { tableConfig with opc := { defaultOpc with sub := 0xA0 } } = false ∧
      Config.legal { defaultConfig with opc := { defaultOpc with sub := 0xA0 } } = true := by decide
theorem test_register_out_of_range : (Instr.add 0 8).regsInRange = false ∧ (Instr.ldi 7 8).regsInRange = true := by decide
theorem test_image_too_long :
    imageFits (List.replicate 257 0x01) = false ∧ imageFits (List.replicate 256 0x01) = true := by
  simp only [imageFits, List.length_replicate]; decide
theorem test_memory_not_canonical :
    Memory.wf [(3, 1), (2, 1)] = false ∧ Memory.wf [(2, 0)] = false ∧ Memory.wf [(256, 1)] = false ∧
      Memory.wf [(2, 1), (3, 1)] = true := by decide

/-! ### One step each -/

/-- V1. -/
theorem test_hlt : nextIs (step (State.reset.withFetchWord 8 0x01)) (fun t => t.halted && t.pc == 1 && t.out == []) = true := by
  decide
/-- V70: the last address at which an instruction executes. -/
theorem test_hlt_at_253 :
    nextIs (step (start 253 (regs 0 0 0 0xF4) noFlags [(253, 0x01)])) (fun t => t.halted && t.pc == 254) = true := by decide
/-- V5. -/
theorem test_ldi_sp :
    nextIs (step (State.reset.withFetchWord 24 0x100782)) (fun t => t.regs[7] == 0x10 && t.pc == 3) = true := by decide
/-- V7: no masking to three bits. -/
theorem test_ldi_bad_register :
    raises (exec (.ldi 255 5) State.reset) State.reset .outOfBounds (.location .REG 255) = true := by decide
/-- V9. -/
theorem test_prn_sp : nextIs (exec (.prn 7) State.reset) (fun t => t.out == [244] && t.pc == 2) = true := by decide
/-- V10. -/
theorem test_prn_bad_register :
    raises (exec (.prn 8) State.reset) State.reset .outOfBounds (.location .REG 8) = true := by decide
/-- V20 with the flags of V33. -/
theorem test_add_wraps :
    nextIs (exec (.add 0 1) (start 0 (regs 200 100 0 0xF4) flagL []))
      (fun t => t.regs[0] == 44 && t.regs[1] == 100 && t.pc == 3 && t.flags == flagL) = true := by decide
/-- V29: `opa` is checked first. -/
theorem test_add_bad_registers :
    raises (exec (.add 8 9) State.reset) State.reset .outOfBounds (.location .REG 8) = true := by decide
/-- V25. -/
theorem test_mul_wraps :
    nextIs (exec (.mul 0 1) (start 0 (regs 255 255 0 0xF4) noFlags [])) (fun t => t.regs[0] == 1) = true := by decide
/-- V27: SP is an ordinary destination. -/
theorem test_mul_sp :
    nextIs (exec (.mul 7 0) (start 0 (regs 2 0 0 0xF4) noFlags [])) (fun t => t.regs[7] == 232) = true := by decide
/-- V36a: unsigned. -/
theorem test_cmp_unsigned :
    nextIs (exec (.cmp 0 1) (start 0 (regs 255 1 0 0xF4) noFlags [])) (fun t => t.flags == flagG && t.pc == 3) = true := by
  decide
/-- V36b: all three flags are rewritten. -/
theorem test_cmp_rewrites :
    nextIs (exec (.cmp 2 2) (start 0 (regs 0 0 0 0xF4) flagL [])) (fun t => t.flags == flagE) = true := by decide
/-- V37. -/
theorem test_sub_wraps :
    nextIs (exec (.sub 0 1) (start 0 (regs 3 5 0 0xF4) noFlags [])) (fun t => t.regs[0] == 254 && t.pc == 3) = true := by
  decide
/-- V39. -/
theorem test_div_floor :
    nextIs (exec (.div 0 1) (start 0 (regs 7 2 0 0xF4) noFlags [])) (fun t => t.regs[0] == 3) = true := by decide
/-- V40. -/
theorem test_div_by_zero :
    raises (exec (.div 0 1) (start 0 (regs 8 0 0 0xF4) noFlags [])) (start 0 (regs 8 0 0 0xF4) noFlags []) .divisionByZero
      (.dividend 8) = true := by decide
/-- V39b. -/
theorem test_mod_smaller :
    nextIs (exec (.mod 0 1) (start 0 (regs 5 9 0 0xF4) noFlags [])) (fun t => t.regs[0] == 5) = true := by decide
/-- V44. -/
theorem test_and :
    nextIs (exec (.and 0 1) (start 0 (regs 0xCC 0xAA 0 0xF4) noFlags [])) (fun t => t.regs[0] == 0x88) = true := by decide
/-- V45. -/
theorem test_xor :
    nextIs (exec (.xor 0 1) (start 0 (regs 0xCC 0xAA 0 0xF4) noFlags [])) (fun t => t.regs[0] == 0x66) = true := by decide
/-- VS2: PUSH R7 stores the decremented SP. -/
theorem test_push_sp :
    nextIs (exec (.push 7) State.reset) (fun t => t.regs[7] == 0xF3 && t.mem == [(0xF3, 0xF3)] && t.pc == 2) = true := by
  decide
/-- VS5: the SP check precedes the register check. -/
theorem test_push_overflow_first :
    raises (exec (.push 9) (start 0 (regs 0 0 0 0) noFlags [])) (start 0 (regs 0 0 0 0) noFlags []) .stackOverflow
      (.stackPointer 0) = true := by decide
/-- VS9: POP R7 leaves the popped byte plus 1. -/
theorem test_pop_sp :
    nextIs (exec (.pop 7) (start 0 (regs 0 0 0 0xF4) noFlags [(0xF4, 0x20)])) (fun t => t.regs[7] == 0x21 && t.pc == 2) =
      true := by decide
/-- VS11: the write of the register is cancelled. -/
theorem test_pop_underflow :
    raises (exec (.pop 1) (start 0 (regs 0 0 0 255) noFlags [(255, 9)])) (start 0 (regs 0 0 0 255) noFlags [(255, 9)])
      .stackUnderflow (.stackPointer 255) = true := by decide
/-- V81: the largest return address. -/
theorem test_call_at_253 :
    nextIs (step (start 253 (regs 0 0x10 0 0xF4) noFlags [(253, 0x50), (254, 1)]))
      (fun t => t.regs[7] == 0xF3 && Memory.read t.mem 0xF3 == 0xFF && t.pc == 0x10) = true := by decide
/-- V82: CALL R7 jumps to the new SP. -/
theorem test_call_sp :
    nextIs (exec (.call 7) State.reset) (fun t => t.regs[7] == 0xF3 && Memory.read t.mem 0xF3 == 2 && t.pc == 0xF3) =
      true := by decide
/-- V86. -/
theorem test_ret :
    nextIs (step (start 0x22 (regs 0 0 0 0xF3) noFlags [(0x22, 0x11), (0xF3, 0x08)]))
      (fun t => t.pc == 0x08 && t.regs[7] == 0xF4) = true := by decide
/-- V88. -/
theorem test_ret_underflow :
    raises (exec .ret (start 0 (regs 0 0 0 255) noFlags [])) (start 0 (regs 0 0 0 255) noFlags []) .stackUnderflow
      (.stackPointer 255) = true := by decide
/-- V62. -/
theorem test_jmp_sp : nextIs (exec (.jmp 7) State.reset) (fun t => t.pc == 0xF4) = true := by decide

/-- One row of the table of 95_test_vectors.md section 2.5: the `pc` after the branch for the flag states none, E, G, L. -/
def branchRow (i : Instr) : List Bool :=
  [noFlags, flagE, flagG, flagL].map fun f => nextIs (exec i (start 0 (regs 0 0 0x40 0xF4) f [])) fun t => t.pc == 0x40

/-- V51. -/
theorem test_jeq : branchRow (.jeq 2) = [false, true, false, false] := by decide
/-- V52. -/
theorem test_jne : branchRow (.jne 2) = [true, false, true, true] := by decide
/-- V53. -/
theorem test_jlt : branchRow (.jlt 2) = [false, false, false, true] := by decide
/-- V54. -/
theorem test_jgt : branchRow (.jgt 2) = [false, false, true, false] := by decide
/-- V55. -/
theorem test_jge : branchRow (.jge 2) = [false, true, true, false] := by decide
/-- V56 and V57: a branch not taken does not read its register. -/
theorem test_jeq_bad_register :
    nextIs (exec (.jeq 9) State.reset) (fun t => t.pc == 2 && t.fault == .noFault) = true ∧
      raises (exec (.jeq 9) (start 0 (regs 0 0 0 0xF4) flagE [])) (start 0 (regs 0 0 0 0xF4) flagE []) .outOfBounds
        (.location .REG 9) = true := by decide

/-- V72: the fetch faults before the unknown opcode is looked at. -/
theorem test_fetch_at_255 :
    raises (step (start 255 (regs 0 0 0 0xF4) noFlags [(255, 0x99)])) (start 255 (regs 0 0 0 0xF4) noFlags [(255, 0x99)])
      .outOfBounds (.location .MEM 256) = true := by decide
/-- V74 (W9): empty memory. -/
theorem test_empty_program :
    raises (step State.reset) State.reset .unknownInstruction (.opcode 0x00) = true := by decide
/-- V79: pc 256, no wrap. -/
theorem test_pc_256 :
    nextIs (step (start 253 (regs 0 0 0 0xF4) noFlags [(253, 0x82), (254, 1), (255, 7)]))
      (fun t => t.regs[1] == 7 && t.pc == 256) = true := by decide
/-- V77, V78: quiescent states have no step. -/
theorem test_quiescent :
    step { State.reset with halted := true } = .fault .halted ∧
      step (State.reset.latched .divisionByZero (.dividend 8)) = .fault .faulted := ⟨rfl, rfl⟩

/-- Every row of the opcode table, operand bytes zero, is what the first step after reset runs. -/
theorem test_table_words_run :
    ∀ w ∈ [0x01, 0x82, 0x47, 0xA2, 0xA0, 0xA7, 0x45, 0x46, 0x50, 0x11, 0x54, 0x55, 0x56, 0x58, 0x57, 0x5A, 0xA1, 0xA3, 0xA4,
        0xA8, 0xAB],
      ∃ i, decodeTableWord 8 w = some i ∧ step (State.reset.withFetchWord 8 w) = exec i (State.reset.withFetchWord 8 w) := by
  intro w hw
  simp only [List.mem_cons, List.not_mem_nil, or_false] at hw
  rcases hw with rfl | rfl | rfl | rfl | rfl | rfl | rfl | rfl | rfl | rfl | rfl | rfl | rfl | rfl | rfl | rfl | rfl | rfl |
    rfl | rfl | rfl <;> exact ⟨_, rfl, rfl⟩

/-! ### The boundary -/

/-- R242: the image and nothing else. -/
theorem test_launch :
    (launch defaultConfig [0x82, 0x00, 0x08]).map (fun t => (t.mem, t.pc, t.regs[7])) =
      some ([(0, 0x82), (2, 0x08)], 0, 0xF4) := by decide
/-- W15: one decimal numeral per line. -/
theorem test_render : renderOut "\n" [72, 0, 255] = "72\n0\n255\n" := by decide
/-- R213: success on HLT, the map's status on a fault, none while running. -/
theorem test_host_status :
    hostStatus FaultKind.code 0 { State.reset with halted := true } = some 0 ∧
      hostStatus FaultKind.code 0 (State.reset.latched .stackOverflow (.stackPointer 0)) = some 5 ∧
      hostStatus FaultKind.code 0 State.reset = none := by decide

/-! ### States that meet the hypotheses of the obligations -/

/-- A machine with the option on, registers R0 = 72, R1 = 9, R2 = 0x40, SP = 0xF4, and `mem` in memory. -/
def full (pc : Pc) (mem : List Host.Cell) : State :=
  { start pc (regs 72 9 0x40 0xF4) noFlags mem with cfg := tableConfig }

/-- DecodingIsLookupOfOpcodeByte, ZeroByteIsNoInstruction: legal configurations, both clauses. -/
theorem witness_legal_configuration :
    defaultConfig.legal = true ∧ tableConfig.legal = true ∧ tableConfig.dispatches .XOR = true ∧
      (∀ m, defaultConfig.dispatches m = true → defaultConfig.opc.byte m ≠ 0xA1) :=
  ⟨by decide, by decide, rfl, fun m => by cases m <;> decide⟩
/-- UnusedOperandBytesAreIgnored, both clauses. -/
theorem witness_unused_operands :
    defaultConfig.lookup 0x11 = some .RET ∧ Mnemonic.RET.arity = 0 ∧ defaultConfig.lookup 0x5A = some .JGE ∧
      Mnemonic.JGE.arity = 1 := by decide
/-- DecodeOfEncodeIsIdentity, EncodeOfDecodeIsWindowPrefix. -/
theorem witness_encode_prefix :
    tableConfig.legal = true ∧ (Instr.mod 255 0).wellFormed tableConfig = true ∧
      encode tableConfig (.mod 255 0) <+: [0xA4, 255, 0] ∧ decode tableConfig 0xA4 255 0 = .ok (.mod 255 0) :=
  ⟨by decide, by decide, by decide, rfl⟩
/-- StepRunsDecodedInstruction, PlacedEncodingIsWhatRuns, DispatchRaisesOnlyOnTrueMiss: at the last fetchable address. -/
theorem witness_fetchable :
    (full 253 [(253, 0x46), (254, 1)]).running ∧ (full 253 [(253, 0x46), (254, 1)]).pc.toNat + 2 < 256 ∧
      decode tableConfig 0x46 1 0 = .ok (.pop 1) ∧ tableConfig.legal = true ∧
      (Instr.pop 1).wellFormed tableConfig = true ∧
      (∀ (k : Nat) (b : Byte), (encode tableConfig (.pop 1))[k]? = some b →
        Memory.read (full 253 [(253, 0x46), (254, 1)]).mem (253 + k) = b) ∧
      tableConfig.lookup 0x46 = some .POP ∧ tableConfig.lookup 0x99 = none := by
  refine ⟨by decide, by decide, rfl, by decide, by decide, fun k b h => ?_, by decide, by decide⟩
  match k with
  | 0 => cases h; rfl
  | 1 => cases h; rfl
  | k + 2 => cases h
/-- FetchAtTopOfMemoryFaults at both ends. -/
theorem witness_top_of_memory :
    (full 254 []).running ∧ 254 ≤ (full 254 []).pc.toNat ∧ (full 254 []).pc.toNat ≤ 256 ∧ (full 256 []).running ∧
      254 ≤ (full 256 []).pc.toNat ∧ (full 256 []).pc.toNat ≤ 256 := by decide
/-- QuiescentStatesHaveNoStep, second clause. -/
theorem witness_running : State.reset.halted = false ∧ State.reset.fault = .noFault := ⟨rfl, rfl⟩
/-- HltHaltsAndAdvancesByOne, last clause: HLT at the last address that can be fetched. -/
theorem witness_last_hlt :
    ∃ t, step (full 253 [(253, 0x01)]) = .next t ∧ t.endedNormally ∧ t.pc = 254 := ⟨_, rfl, ⟨rfl, rfl⟩, rfl⟩
/-- RegisterAccessIsCheckedAndPlain, MemoryAccessIsCheckedAndPlain: the boundary values of both clauses. -/
theorem witness_access_bounds :
    (7 < 8 ∧ 8 ≤ 8) ∧ Memory.wf (full 0 [(255, 1)]).mem = true ∧ 255 < 256 ∧ 256 ≤ 256 := by decide
/-- ResetGivesTabulatedValues: both states. -/
theorem witness_reset_states (s : State) :
    State.reset ∈ [State.reset, s.resetEvent] ∧ s.resetEvent ∈ [State.reset, s.resetEvent] := by simp
/-- LaunchPlacesImageFromZero, LaunchStatesSatisfyInvariant, EveryRunOfEveryImageKeepsInvariant: lengths 256 and 257. -/
theorem witness_image_lengths :
    (List.replicate 256 (1 : Byte)).length ≤ 256 ∧ 256 < (List.replicate 257 (1 : Byte)).length ∧
      (launch defaultConfig [0x01]).isSome = true := by
  rw [List.length_replicate, List.length_replicate]
  exact ⟨by decide, by decide, rfl⟩
/-- The same: a run of one step answers a next state and a run of two a fault. -/
theorem witness_run :
    ∃ s t : State, launch defaultConfig [0x01] = some s ∧ Sys2Proof.core.run 1 s = .next t ∧
      Sys2Proof.core.run 2 s = .fault Fault.halted :=
  ⟨_, _, rfl, rfl, rfl⟩
/-- AluDivModAreQuotientAndRemainder, AluAndXorAreBitwise. -/
theorem witness_alu_operands : ((0 : Byte) = 0 ∧ (1 : Byte) ≠ 0) ∧ (0 < 8 ∧ 7 < 8) := by decide
/-- ComparisonSetsExactlyOneFlag, second clause. -/
theorem witness_flag_states : flagE ∈ [flagE, flagG, flagL] ∧ flagL ∈ [flagE, flagG, flagL] := by decide
/-- LdiLoadsImmediate, PrnAppendsRegisterToOut, AddAndMulWriteWrappedResult, SubAndXorWriteResult, JmpSetsProgramCounter,
and the operand clauses of the other instruction statements: 7 and 8 are the boundary. -/
theorem witness_operand_bounds : (7 : Byte).toNat < 8 ∧ 8 ≤ (8 : Byte).toNat ∧ (6 : Byte).toNat < 7 := by decide
/-- CmpWritesFlagsOnly: the three orders. -/
theorem witness_orders :
    (full 0 []).regs[0].toNat = (full 0 []).regs[0].toNat ∧ (full 0 []).regs[1].toNat < (full 0 []).regs[0].toNat ∧
      (full 0 []).regs[3].toNat < (full 0 []).regs[1].toNat := by decide
/-- DivAndModWriteResult, DivAndModRaiseInOrder, AluInstructionsShareOneShape: a divisor and a zero divisor. -/
theorem witness_divisors :
    (full 0 []).regs[1] ≠ 0 ∧ (full 0 []).regs[3] = 0 ∧ Instr.mod 0 1 ∈ [Instr.div 0 1, .mod 0 1] ∧
      alu .DIV 72 9 = .value 8 ∧ alu .MOD 72 0 = .divisionByZero 72 := by decide
/-- The (instruction, operation, opcode byte) triples of AluInstructionsShareOneShape, and the instruction lists of the
other ALU statements. -/
theorem witness_alu_triples (o : OpcodeMap) :
    (Instr.xor 0 1, AluOp.XOR, o.xor) ∈ [(Instr.add 0 1, AluOp.ADD, o.add), (.sub 0 1, .SUB, o.sub),
      (.mul 0 1, .MUL, o.mul), (.div 0 1, .DIV, o.div), (.mod 0 1, .MOD, o.mod), (.and 0 1, .AND, o.and),
      (.xor 0 1, .XOR, o.xor)] ∧
      Instr.mul 0 1 ∈ [Instr.add 0 1, .mul 0 1] ∧ Instr.sub 0 1 ∈ [Instr.sub 0 1, .and 0 1, .xor 0 1] := by simp
/-- NoDivisionByZeroWithoutOption, OutOnlyGrowsAndConfigurationStays, StepKeepsInvariant's step: a step without the
option. -/
theorem witness_step_without_option :
    State.reset.cfg.extAluOpcodes = false ∧ ∃ t, step State.reset = .next t := ⟨rfl, _, rfl⟩
/-- PushStoresAtDecrementedSp, CallPushesReturnAddressAndJumps at SP 1 and `pc` 253; PushAndCallRaiseInOrder at SP 0. -/
theorem witness_push :
    Memory.wf (start 253 (regs 0 0 0 1) noFlags []).mem = true ∧ (start 253 (regs 0 0 0 1) noFlags []).sp ≠ 0 ∧
      (start 253 (regs 0 0 0 1) noFlags []).pc.toNat ≤ 253 ∧ (start 0 (regs 0 0 0 0) noFlags []).sp = 0 ∧
      Instr.call 1 ∈ [Instr.push 1, .call 1] := by decide
/-- PopLoadsFromSp and PopRaisesInOrder, RetPopsProgramCounter: SP 254 and 255, a popped byte 254 and 255. -/
theorem witness_pop :
    (start 0 (regs 0 0 0 254) noFlags []).sp ≠ 255 ∧ (start 0 (regs 0 0 0 255) noFlags []).sp = 255 ∧
      Memory.read (start 0 (regs 0 0 0 1) noFlags [(1, 254)]).mem (start 0 (regs 0 0 0 1) noFlags [(1, 254)]).sp.toNat ≠ 255 ∧
      Memory.read (start 0 (regs 0 0 0 1) noFlags [(1, 255)]).mem (start 0 (regs 0 0 0 1) noFlags [(1, 255)]).sp.toNat =
        255 := by decide
/-- PopAfterPushRestoresRegisterAndSp: the state right after the PUSH with the register overwritten. -/
theorem witness_push_pop :
    ∃ t u : State, exec (.push 0) (full 0 []) = .next t ∧ u = { t with regs := t.regs.set 0 99 } ∧ u.sp = t.sp ∧
      Memory.read u.mem t.sp.toNat = Memory.read t.mem t.sp.toNat ∧ Memory.wf (full 0 []).mem = true ∧
      (full 0 []).sp ≠ 0 :=
  ⟨_, _, rfl, rfl, rfl, rfl, rfl, by decide⟩
/-- RetAfterCallReturnsBehindIt: the state right after the CALL, elsewhere. -/
theorem witness_call_ret :
    ∃ t u : State, exec (.call 2) (full 253 []) = .next t ∧ u = { t with pc := 17 } ∧ u.sp = t.sp ∧
      Memory.read u.mem t.sp.toNat = Memory.read t.mem t.sp.toNat ∧ (full 253 []).pc.toNat ≤ 253 ∧
      Memory.wf (full 253 []).mem = true ∧ (full 253 []).sp ≠ 0 :=
  ⟨_, _, rfl, rfl, rfl, rfl, by decide, rfl, by decide⟩
/-- StepOfCallStoresWholeReturnAddress: a CALL at 253 that completes. -/
theorem witness_step_of_call :
    ∃ t, step (full 253 [(253, 0x50), (254, 2)]) = .next t ∧ t.fault = .noFault ∧
      (full 253 [(253, 0x50), (254, 2)]).running ∧ decode tableConfig 0x50 2 0 = .ok (.call 2) ∧
      Memory.wf (full 253 [(253, 0x50), (254, 2)]).mem = true :=
  ⟨_, rfl, rfl, by decide, rfl, by decide⟩
/-- StackPointerMovesWithoutWrap, each clause. -/
theorem witness_stack_moves :
    (full 0 []).fault = .noFault ∧ (∃ t, exec (.push 0) (full 0 []) = .next t ∧ t.fault = .noFault) ∧
      (∃ t, exec (.call 0) (full 0 []) = .next t ∧ t.fault = .noFault) ∧
      (∃ t, exec .ret (full 0 []) = .next t ∧ t.fault = .noFault) ∧
      (0 : Byte).toNat ≠ 7 ∧ ∃ t, exec (.pop 0) (full 0 []) = .next t ∧ t.fault = .noFault :=
  ⟨rfl, ⟨_, rfl, rfl⟩, ⟨_, rfl, rfl⟩, ⟨_, rfl, rfl⟩, by decide, _, rfl, rfl⟩
/-- ConditionalBranchesFollowTheirFlags, taken and not taken, for each condition; BranchOutcomeTable's rows. -/
theorem witness_flags :
    noFlags.E = false ∧ flagE.E = true ∧ flagL.L = true ∧ flagG.G = true ∧ noFlags.L = false ∧ noFlags.G = false ∧
      ¬(noFlags.G = true ∨ noFlags.E = true) ∧ (start 0 (regs 0 0 0 0) flagG []).flags = flagG ∧
      (flagG, [false, true, false, true, true]) ∈ [(noFlags, [false, true, false, false, false]),
        (flagE, [true, false, false, false, true]), (flagG, [false, true, false, true, true]),
        (flagL, [false, true, true, false, false])] := by decide
/-- EveryInstructionKeepsOtherRegistersAndCells, OnlyCmpChangesFlags, OnlyHltHaltsAndOnlyPrnOutputs: an instruction that completes and one that faults; a flag, Halted and OUT that change. -/
theorem witness_frames :
    (∃ t, exec (.cmp 0 1) (full 0 []) = .next t ∧ t.flags ≠ (full 0 []).flags) ∧
      (∃ t, exec .hlt (full 0 []) = .next t ∧ t.halted ≠ (full 0 []).halted) ∧
      (∃ t, exec (.prn 0) (full 0 []) = .next t ∧ t.out ≠ (full 0 []).out) ∧
      ∃ t, exec (.ldi 8 0) (full 0 []) = .next t ∧ t.fault ≠ .noFault :=
  ⟨⟨_, rfl, by decide⟩, ⟨_, rfl, by decide⟩, ⟨_, rfl, by decide⟩, _, rfl, by decide⟩
/-- ProgramCounterAfterEachInstruction and ProgramCounterNeverWraps: an LDI at 253, whose step leaves 256. -/
theorem witness_program_counter :
    (full 253 [(253, 0x82)]).pc.toNat ≤ 253 ∧ (3 : Pc).toNat ≤ 3 ∧ (full 253 [(253, 0x82)]).fault = .noFault ∧
      decode tableConfig 0x82 0 0 = .ok (.ldi 0 0) ∧
      (Instr.ldi 0 0).mnemonic ∉ [Mnemonic.CALL, .RET, .JMP, .JEQ, .JNE, .JLT, .JGT, .JGE] ∧
      ∃ t, step (full 253 [(253, 0x82)]) = .next t ∧ t.fault = .noFault ∧ t.pc.toNat = 256 :=
  ⟨by decide, by decide, rfl, rfl, by decide, _, rfl, rfl, rfl⟩
/-- StepReadsOnlyWindowAndStackTop: for a RET, and for a PUSH that completes, another memory that agrees on the four
cells and, for the PUSH, not on the cell at SP - 1. -/
theorem witness_other_memory :
    (∀ a ∈ [(full 0 [(0, 0x11)]).pc.toNat, (full 0 [(0, 0x11)]).pc.toNat + 1, (full 0 [(0, 0x11)]).pc.toNat + 2,
        (full 0 [(0, 0x11)]).sp.toNat], Memory.read [(0, 0x11), (9, 1)] a = Memory.read (full 0 [(0, 0x11)]).mem a) ∧
      (∃ t, step (full 0 [(0, 0x11)]) = .next t) ∧
      (∀ a ∈ [(full 0 [(0, 0x45)]).pc.toNat, (full 0 [(0, 0x45)]).pc.toNat + 1, (full 0 [(0, 0x45)]).pc.toNat + 2,
        (full 0 [(0, 0x45)]).sp.toNat], Memory.read [(0, 0x45), (0xF3, 1)] a = Memory.read (full 0 [(0, 0x45)]).mem a) ∧
      (∃ t, step (full 0 [(0, 0x45)]) = .next t ∧ t.fault = .noFault) ∧ Memory.wf (full 0 [(0, 0x45)]).mem = true ∧
      Memory.wf [(0, 0x45), (0xF3, 1)] = true ∧ decode tableConfig 0x45 0 0 = .ok (.push 0) :=
  ⟨by decide, ⟨_, rfl⟩, by decide, ⟨_, rfl, rfl⟩, by decide, by decide, rfl⟩
/-- FaultingStepChangesOnlyTheLatch: one step for each kind a step can raise. -/
theorem witness_fault_kinds :
    (∃ t, step (full 0 [(0, 0x54), (1, 8)]) = .next t ∧ t.fault = .outOfBounds) ∧
      (∃ t, step (full 0 [(0, 0xA3), (2, 3)]) = .next t ∧ t.fault = .divisionByZero) ∧
      (∃ t, step (full 0 [(0, 0x99)]) = .next t ∧ t.fault = .unknownInstruction) ∧
      (∃ t, step (start 0 (regs 0 0 0 0) noFlags [(0, 0x45)]) = .next t ∧ t.fault = .stackOverflow) ∧
      ∃ t, step (start 0 (regs 0 0 0 255) noFlags [(0, 0x11)]) = .next t ∧ t.fault = .stackUnderflow :=
  ⟨⟨_, rfl, rfl⟩, ⟨_, rfl, rfl⟩, ⟨_, rfl, rfl⟩, ⟨_, rfl, rfl⟩, _, rfl, rfl⟩
/-- FaultKindsComeFromTheirInstructions: the same kinds from `exec`. -/
theorem witness_exec_faults :
    (full 0 []).fault = .noFault ∧ (∃ t, exec (.jmp 8) (full 0 []) = .next t ∧ t.fault = .outOfBounds) ∧
      (∃ t, exec (.mod 0 3) (full 0 []) = .next t ∧ t.fault = .divisionByZero) ∧
      (∃ t, exec (.call 0) (start 0 (regs 0 0 0 0) noFlags []) = .next t ∧ t.fault = .stackOverflow) ∧
      ∃ t, exec (.pop 0) (start 0 (regs 0 0 0 255) noFlags []) = .next t ∧ t.fault = .stackUnderflow :=
  ⟨rfl, ⟨_, rfl, rfl⟩, ⟨_, rfl, rfl⟩, ⟨_, rfl, rfl⟩, _, rfl, rfl⟩
/-- WellBehavedInstructionsComplete, for DIV by R1 = 9. -/
theorem witness_well_behaved :
    (full 0 []).fault = .noFault ∧ (Instr.div 0 1).regsInRange = true ∧ (full 0 []).sp ≠ 0 ∧ (full 0 []).sp ≠ 255 ∧
      Memory.read (full 0 []).mem (full 0 []).sp.toNat ≠ 255 ∧ regOf (full 0 []).regs 1 ≠ 0 := by decide
/-- StepKeepsInvariant: a state that meets the invariant and steps to another. -/
theorem witness_invariant : (full 0 [(0, 0x01)]).Inv ∧ ∃ t, step (full 0 [(0, 0x01)]) = .next t :=
  ⟨⟨by decide, by decide, by decide, by decide, .inl ⟨rfl, rfl⟩⟩, _, rfl⟩
/-- PushedOpcodeRunsNext: SP 3, PUSH R1 at 0, R1 = 0x01 (HLT). -/
theorem witness_pushed_opcode :
    let s := start 0 (regs 0 0x01 0 3) noFlags [(0, 0x45), (1, 1)]
    s.running ∧ s.cfg.legal = true ∧ Memory.wf s.mem = true ∧ s.pc.toNat ≤ 251 ∧
      Memory.read s.mem s.pc.toNat = s.cfg.opc.push ∧ Memory.read s.mem (s.pc.toNat + 1) = 1 ∧
      s.sp.toNat = s.pc.toNat + 3 ∧ s.regs[(1 : Byte).toNat] = s.cfg.opc.hlt := by decide

end Sys2Proof.Tests
end

section
/-! SUPPORT and PROOFS. The scope's primitive accesses (spec 00_scope.md R9, R10): what a write leaves alone, stated as
the frame relations of the claims, and the two obligations on register and memory access. -/

namespace Sys2Proof.Machine

/-! ### Accesses on either side of their bound -/

theorem State.regRead_of_lt (s : State) {i : Nat} (h : i < 8) : s.regRead i = .ok s.regs[i] := by
  rw [State.regRead_eq, dif_pos h]

theorem State.regRead_of_ge (s : State) {i : Nat} (h : 8 ≤ i) : s.regRead i = .error (.regOutOfBounds i) := by
  rw [State.regRead_eq, dif_neg (Nat.not_lt.mpr h)]

theorem State.regWrite_of_lt (s : State) {i : Nat} (h : i < 8) (v : Byte) :
    s.regWrite i v = .ok { s with regs := s.regs.set i v } := by
  rw [State.regWrite_eq, dif_pos h]

theorem State.regWrite_of_ge (s : State) {i : Nat} (h : 8 ≤ i) (v : Byte) :
    s.regWrite i v = .error (.regOutOfBounds i) := by
  rw [State.regWrite_eq, dif_neg (Nat.not_lt.mpr h)]

theorem State.memRead_of_lt (s : State) {a : Nat} (h : a < 256) : s.memRead a = .ok (Memory.read s.mem a) := by
  rw [State.memRead_eq, if_pos h]

theorem State.memRead_of_ge (s : State) {a : Nat} (h : 256 ≤ a) : s.memRead a = .error (.memOutOfBounds a) := by
  rw [State.memRead_eq, if_neg (Nat.not_lt.mpr h)]

theorem State.memWrite_of_lt (s : State) {a : Nat} (h : a < 256) (v : Byte) :
    s.memWrite a v = .ok { s with mem := Memory.write s.mem a v } := by
  rw [State.memWrite_eq, if_pos h]

theorem State.memWrite_of_ge (s : State) {a : Nat} (h : 256 ≤ a) (v : Byte) :
    s.memWrite a v = .error (.memOutOfBounds a) := by
  rw [State.memWrite_eq, if_neg (Nat.not_lt.mpr h)]

/-! ### Frames of one write -/

/-- Setting one register leaves the seven others alone (R9). -/
theorem sameRegsExcept_of_regs_eq_set {s t : State} {i : Nat} (h : i < 8) {v : Byte}
    (ht : t.regs = s.regs.set i v) : sameRegsExcept [i] s t := by
  intro r hr
  have hne : i ≠ r.val := fun he => hr (he ▸ List.mem_singleton_self i)
  rw [ht]
  exact Vector.getElem_set_ne h r.isLt hne

/-- Writing one cell leaves every other cell alone (R10). -/
theorem sameMemExcept_of_mem_eq_write {s t : State} {a : Nat} {v : Byte}
    (ht : t.mem = Memory.write s.mem a v) : sameMemExcept [a] s t := by
  intro b hb
  rw [ht]
  exact Memory.read_write_other s.mem v (List.ne_of_not_mem_cons hb)

/-! ### The obligations -/

/-- Settles O14: below 256 the written cell reads back because memory is canonical, and the write's frame is every other
cell; from 256 on both accesses raise. -/
theorem memoryAccessIsCheckedAndPlain : Obligations.MemoryAccessIsCheckedAndPlain := by
  intro s a v hm
  refine ⟨fun h => ⟨s.memRead_of_lt h, _, s.memWrite_of_lt h v, ?_, sameMemExcept_of_mem_eq_write rfl, rfl⟩,
    fun h => ⟨s.memRead_of_ge h, s.memWrite_of_ge h v⟩⟩
  rw [State.memRead_of_lt _ h, Memory.read_write_same hm]

/-- Settles O13: below 8 the written register reads back and the write's frame is the seven others; from 8 on both
accesses raise; SP is the read of register 7. -/
theorem registerAccessIsCheckedAndPlain : Obligations.RegisterAccessIsCheckedAndPlain := by
  intro s i v
  refine ⟨fun h => ⟨s.regRead_of_lt h, _, s.regWrite_of_lt h v, ?_, sameRegsExcept_of_regs_eq_set h rfl, rfl⟩,
    fun h => ⟨s.regRead_of_ge h, s.regWrite_of_ge h v⟩, ?_⟩
  · rw [State.regRead_of_lt _ h, Vector.getElem_set_self]
  · rw [State.regRead_of_lt s (by decide), State.sp_eq]

end Sys2Proof.Machine
end

section
/-! SUPPORT and PROOFS. The state's table of `pc` (spec 10_state.md R26): the row of each instruction read off the
states it completes in, and the obligation on it. -/

namespace Sys2Proof.Machine

/-- On a register number the claims' register content is the register itself. -/
theorem regOf_of_lt (regs : Vector Byte 8) {n : Nat} (h : n < 8) : regOf regs n = regs[n] := by
  simp [regOf, h]

/-- One row of R26 for the seven instructions that store an ALU value. -/
theorem pcAfter_of_aluForm {i : Instr} {op : AluOp} {opa opb : Byte} (hi : aluForm i = some (op, opa, opb))
    (s : State) : pcAfter i s = s.pc + 3 := by
  cases i <;> cases hi <;> rfl

/-- One row of R26 for JMP and the conditional branches: the register when taken, the next instruction when not. -/
theorem pcAfter_of_branchForm {i : Instr} {s : State} {taken : Bool} {opa : Byte}
    (hi : branchForm s.flags i = some (taken, opa)) :
    pcAfter i s = if taken then (regOf s.regs opa.toNat).setWidth 9 else s.pc + 2 := by
  cases i <;> cases hi
  case jne.refl => cases hE : s.flags.E <;> simp [pcAfter, Flags.takesJne, hE]
  all_goals rfl

/-- Each state an instruction completes in has the `pc` that R26 tabulates. -/
theorem Effect.pc_eq_pcAfter {s t : State} {i : Instr} (h : Effect s i t) : t.pc = pcAfter i s := by
  cases h with
  | hlt | ldi | prn | cmp | push | pop | ret => rfl
  | alu hi => exact (pcAfter_of_aluForm hi s).symm
  | call h => rw [pcAfter, State.sp_eq, regOf_of_lt _ h]
  | jump hi h => rw [pcAfter_of_branchForm hi, if_pos rfl, regOf_of_lt _ h]
  | fallThrough hi => rw [pcAfter_of_branchForm hi, if_neg Bool.false_ne_true]

/-- Settles O48: an instruction completes with the latch as it was, hence empty, and the `pc` of its row, or raises a
kind other than None with `pc` where it stood. -/
theorem programCounterAfterEachInstruction : Obligations.ProgramCounterAfterEachInstruction := by
  intro i s t hs h
  rcases exec_inversion h with he | ⟨k, -, rfl⟩
  · obtain ⟨-, hfault, -⟩ := he.keeps_latch
    exact ⟨fun _ => he.pc_eq_pcAfter, fun hf => absurd (hfault.trans hs) hf⟩
  · exact ⟨fun hf => absurd hf k.kind_ne_noFault, fun _ => s.raise_pc k⟩

end Sys2Proof.Machine
end

section
/-! SUPPORT and PROOFS. Decoding as a lookup (spec 30_encoding.md R84): which mnemonics a configuration dispatches, and
the obligation that joins it to the laws of the lookup. -/

namespace Sys2Proof

/-- The optional mnemonics are the five of R88. -/
theorem Mnemonic.optional_iff_mem (m : Mnemonic) :
    m.optional = true ↔ m ∈ [Mnemonic.SUB, .DIV, .MOD, .AND, .XOR] := by
  cases m <;> decide

/-- A mnemonic is dispatched when it is not optional, and when the option is on (R84, R88). -/
theorem Config.dispatches_iff (cfg : Config) (m : Mnemonic) :
    cfg.dispatches m = true ↔ ¬ m.optional = true ∨ cfg.extAluOpcodes = true := by
  simp [Config.dispatches]

/-- Settles O3: legality makes the lookup of a dispatched byte find its own mnemonic, a byte of no dispatched mnemonic
is missed, and `decode` follows the lookup alone. -/
theorem decodingIsLookupOfOpcodeByte : Obligations.DecodingIsLookupOfOpcodeByte := by
  intro cfg hl
  refine ⟨fun m opa opb hm => ?dispatched, fun ir opa opb hir => ?unknown, fun m => ?dispatchedSet⟩
  case dispatched => exact decode_of_lookup (Config.lookup_byte hl hm) opa opb
  case unknown => exact decode_of_lookup_none (Config.lookup_none.mpr hir) opa opb
  case dispatchedSet => rw [cfg.dispatches_iff, m.optional_iff_mem]

end Sys2Proof
end

section
/-! SUPPORT and PROOFS. The step (spec 40_fetch_decode_execute.md R103, R107): what it does with a fetched window, that no
instruction raises UnknownInstruction, when there is a step at all, and the two obligations on dispatch and quiescence. -/

namespace Sys2Proof.Machine

/-! ### The step of a fetched window -/

/-- A window that decodes runs its instruction (R112's last case). -/
theorem step_of_decode {s : State} {i : Instr} (hs : s.running) (hpc : s.pc.toNat + 2 < 256)
    (hd : decode s.cfg (Memory.read s.mem s.pc.toNat) (Memory.read s.mem (s.pc.toNat + 1))
      (Memory.read s.mem (s.pc.toNat + 2)) = .ok i) : step s = exec i s := by
  simp only [step_running hs, if_pos hpc, hd]

/-- A fetched byte that no dispatched mnemonic has takes the fault of R89, whatever bytes follow it. -/
theorem step_of_lookup_none {s : State} (hs : s.running) (hpc : s.pc.toNat + 2 < 256)
    (hm : s.cfg.lookup (Memory.read s.mem s.pc.toNat) = none) :
    step s = .next (s.raise (.unknownInstruction (Memory.read s.mem s.pc.toNat))) := by
  simp only [step_running hs, if_pos hpc, decode_of_lookup_none hm]

/-- UnknownInstruction is not among the faults of an instruction. -/
theorem Raises.kind_ne_unknownInstruction {s : State} {i : Instr} {k : Raise} (h : Raises s i k) :
    k.kind ≠ .unknownInstruction := by
  cases h <;> exact FaultKind.noConfusion

/-- An instruction that starts with an empty latch leaves it empty or with a fault of its own. -/
theorem exec_fault_ne_unknownInstruction {i : Instr} {s t : State} (hs : s.fault = .noFault) (h : exec i s = .next t) :
    t.fault ≠ .unknownInstruction := by
  rcases exec_inversion h with he | ⟨k, hk, rfl⟩
  · obtain ⟨-, hfault, -⟩ := he.keeps_latch
    rw [hfault, hs]
    exact FaultKind.noConfusion
  · exact hk.kind_ne_unknownInstruction

/-- The transition that claims write out as `latched` is the raise of that kind and info (R200). -/
theorem State.raise_eq_latched (s : State) (k : Raise) : s.raise k = s.latched k.kind k.detail := rfl

/-! ### Where there is a step -/

/-- There is a step exactly from the running states (R100, R107). -/
theorem step_next_iff_running (s : State) : (∃ t, step s = .next t) ↔ s.running :=
  ⟨fun ⟨_, h⟩ => (step_cases h).1, step_answers_next⟩

theorem exec_hlt (s : State) : exec .hlt s = .next { s with halted := true, pc := s.pc + 1 } := rfl

/-! ### The obligations -/

/-- Settles O10: a miss of the lookup is the raise of the step itself; a hit decodes, so the step is the instruction,
which starts with an empty latch and has no such fault of its own. -/
theorem dispatchRaisesOnlyOnTrueMiss : Obligations.DispatchRaisesOnlyOnTrueMiss := by
  intro s hs hpc
  refine ⟨fun hm => ?miss, fun m hm => ?hit⟩
  case miss =>
    rw [step_of_lookup_none hs hpc hm, State.raise_eq_latched]
    rfl
  case hit =>
    have hstep := step_of_decode hs hpc (decode_of_lookup hm _ _)
    refine ⟨hstep, fun t ht => ?_⟩
    rw [hstep] at ht
    exact exec_fault_ne_unknownInstruction hs.2 ht

/-- Settles O12: only running states step, and the state HLT completes in is Halted, hence has no step. -/
theorem quiescentStatesHaveNoStep : Obligations.QuiescentStatesHaveNoStep := by
  refine ⟨step_next_iff_running, fun s _ _ => ⟨_, exec_hlt s, rfl, fun u hu => ?_⟩⟩
  rw [step_halted rfl] at hu
  cases hu

end Sys2Proof.Machine
end

section
/-! SUPPORT and PROOFS. HLT, LDI and PRN (spec 41_halt_move_output.md R120, R121, R122): what LDI and PRN do on either
side of the register bound, what a step that latches nothing is, and the three obligations. -/

namespace Sys2Proof.Machine

/-! ### LDI and PRN on either side of the register bound -/

theorem exec_ldi_of_lt {opa : Byte} (h : opa.toNat < 8) (imm : Byte) (s : State) :
    exec (.ldi opa imm) s = .next { s with regs := s.regs.set opa.toNat imm, pc := s.pc + 3 } := by
  rw [exec_eq_complete, blockOf, ldiBlock_eq, dif_pos h, State.complete_ok]

theorem exec_ldi_of_ge {opa : Byte} (h : 8 ≤ opa.toNat) (imm : Byte) (s : State) :
    exec (.ldi opa imm) s = .next (s.raise (.regOutOfBounds opa.toNat)) := by
  rw [exec_eq_complete, blockOf, ldiBlock_eq, dif_neg (Nat.not_lt.mpr h), State.complete_error]

theorem exec_prn_of_lt {opa : Byte} (h : opa.toNat < 8) (s : State) :
    exec (.prn opa) s = .next { s with out := s.out ++ [s.regs[opa.toNat]], pc := s.pc + 2 } := by
  rw [exec_eq_complete, blockOf, prnBlock_eq, dif_pos h, State.complete_ok]

theorem exec_prn_of_ge {opa : Byte} (h : 8 ≤ opa.toNat) (s : State) :
    exec (.prn opa) s = .next (s.raise (.regOutOfBounds opa.toNat)) := by
  rw [exec_eq_complete, blockOf, prnBlock_eq, dif_neg (Nat.not_lt.mpr h), State.complete_error]

/-! ### Steps that latch nothing -/

/-- A raise always latches a kind (R200), so a step that ends with an empty latch completed the instruction of a window
inside the address space. -/
theorem step_completes_of_noFault {s t : State} (h : step s = .next t) (hf : t.fault = .noFault) :
    ∃ i, s.pc.toNat < 254 ∧ decode s.cfg (Memory.read s.mem s.pc.toNat) (Memory.read s.mem (s.pc.toNat + 1))
      (Memory.read s.mem (s.pc.toNat + 2)) = .ok i ∧ Effect s i t := by
  obtain ⟨-, ⟨k, rfl, -⟩ | ⟨i, hpc, hd, he⟩⟩ := step_cases h
  · exact absurd hf k.kind_ne_noFault
  · obtain he | ⟨k, -, rfl⟩ := exec_inversion he
    · exact ⟨i, hpc, hd, he⟩
    · exact absurd hf k.kind_ne_noFault

/-- Only HLT completes with another Halted bit than it began with (R32). -/
theorem Effect.eq_hlt_of_halted_ne {s t : State} {i : Instr} (h : Effect s i t) (hne : t.halted ≠ s.halted) :
    i = .hlt := by
  cases h with
  | hlt => rfl
  | ldi | prn | alu | cmp | push | pop | call | ret | jump | fallThrough => exact absurd rfl hne

/-- HLT completes in one state only (R120). -/
theorem Effect.hlt_iff {s t : State} : Effect s .hlt t ↔ t = { s with halted := true, pc := s.pc + 1 } := by
  refine ⟨fun h => ?_, fun h => h ▸ .hlt⟩
  cases h with
  | hlt => rfl
  | alu hi | jump hi | fallThrough hi => cases hi

/-! ### The obligations -/

/-- Settles O22: HLT's state is Halted, so it has no step. A step that ends a run normally latches nothing, so it
completes an instruction; the step began Running, so that instruction set Halted and is HLT. -/
theorem hltHaltsAndAdvancesByOne : Obligations.HltHaltsAndAdvancesByOne := by
  intro s
  refine ⟨rfl, exec_hlt s, fun u hu => ?noStep, fun t ht hend => ?normalEnd⟩
  case noStep =>
    rw [step_halted rfl] at hu
    cases hu
  case normalEnd =>
    obtain ⟨⟨hs, -⟩, -⟩ := step_cases ht
    obtain ⟨hhalted, hfault⟩ := hend
    obtain ⟨i, hpc, hd, he⟩ := step_completes_of_noFault ht hfault
    obtain rfl : i = .hlt := he.eq_hlt_of_halted_ne (by simp [hs, hhalted])
    exact ⟨by omega, hd, Effect.hlt_iff.mp he⟩

/-- Settles O23: below 8 the PRN reads back the register just set; from 8 on the write raises. -/
theorem ldiLoadsImmediate : Obligations.LdiLoadsImmediate := by
  intro opa imm s
  refine ⟨rfl, fun h => ⟨_, exec_ldi_of_lt h imm s, rfl, ?readBack⟩, fun h => exec_ldi_of_ge h imm s⟩
  case readBack => rw [exec_prn_of_lt h, Vector.getElem_set_self]

/-- Settles O24: the register is read before anything is emitted, so a bad register byte leaves OUT alone. -/
theorem prnAppendsRegisterToOut : Obligations.PrnAppendsRegisterToOut := by
  intro opa s
  exact ⟨rfl, fun h => exec_prn_of_lt h s, fun h => exec_prn_of_ge h s⟩

end Sys2Proof.Machine
end

section
/-! SUPPORT and PROOFS. The ALU and the instructions that store its value (spec 42_alu.md R131 to R137, R140, R141,
R149): one rule per outcome of R149's block, stated over `aluForm`, and the four obligations. -/

namespace Sys2Proof.Machine

/-! ### The shape of the storing ALU instructions -/

theorem encode_of_aluForm {i : Instr} {op : AluOp} {opa opb : Byte} (hi : aluForm i = some (op, opa, opb))
    (cfg : Config) : encode cfg i = [cfg.opc.byte i.mnemonic, opa, opb] := by
  cases i <;> cases hi <;> rfl

theorem exec_of_aluForm {i : Instr} {op : AluOp} {opa opb : Byte} (hi : aluForm i = some (op, opa, opb))
    (s : State) : exec i s = s.complete (aluBlock op opa opb s) := by
  cases i <;> cases hi <;> rfl

/-- Only CMP answers flags, and CMP is none of the seven (R130). -/
theorem alu_ne_flags_of_aluForm {i : Instr} {op : AluOp} {opa opb : Byte} (hi : aluForm i = some (op, opa, opb))
    (a b : Byte) (f : Flags) : alu op a b ≠ .flags f := by
  cases op with
  | CMP => cases i <;> cases hi
  | ADD | SUB | MUL | AND | XOR => exact AluResult.noConfusion
  | DIV | MOD =>
    rw [alu]
    split_ifs <;> exact AluResult.noConfusion

/-! ### R149, one rule per outcome -/

section
variable {i : Instr} {op : AluOp} {opa opb : Byte} {s : State}

theorem exec_of_aluForm_of_opa_ge (hi : aluForm i = some (op, opa, opb)) (ha : 8 ≤ opa.toNat) :
    exec i s = .next (s.raise (.regOutOfBounds opa.toNat)) := by
  rw [exec_of_aluForm hi, aluBlock_eq, dif_neg (Nat.not_lt.mpr ha), State.complete_error]

theorem exec_of_aluForm_of_opb_ge (hi : aluForm i = some (op, opa, opb)) (ha : opa.toNat < 8) (hb : 8 ≤ opb.toNat) :
    exec i s = .next (s.raise (.regOutOfBounds opb.toNat)) := by
  rw [exec_of_aluForm hi, aluBlock_eq, dif_pos ha, dif_neg (Nat.not_lt.mpr hb), State.complete_error]

theorem exec_of_aluForm_of_value (hi : aluForm i = some (op, opa, opb)) (ha : opa.toNat < 8) (hb : opb.toNat < 8)
    {r : Byte} (hr : alu op s.regs[opa.toNat] s.regs[opb.toNat] = .value r) :
    exec i s = .next { s with regs := s.regs.set opa.toNat r, pc := s.pc + 3 } := by
  rw [exec_of_aluForm hi, aluBlock_eq, dif_pos ha, dif_pos hb, hr, aluStore, State.complete_ok]

theorem exec_of_aluForm_of_divisionByZero (hi : aluForm i = some (op, opa, opb)) (ha : opa.toNat < 8)
    (hb : opb.toNat < 8) {d : Byte} (hd : alu op s.regs[opa.toNat] s.regs[opb.toNat] = .divisionByZero d) :
    exec i s = .next (s.raise (.divisionByZero d)) := by
  rw [exec_of_aluForm hi, aluBlock_eq, dif_pos ha, dif_pos hb, hd, aluStore, State.complete_error]

/-- An instruction of the shape with registers in range, from the number of the value its ALU operation gives. -/
theorem exec_of_aluForm_of_toNat (hi : aluForm i = some (op, opa, opb)) (ha : opa.toNat < 8) (hb : opb.toNat < 8)
    {n : Nat} (h : ∃ r, alu op s.regs[opa.toNat] s.regs[opb.toNat] = .value r ∧ r.toNat = n) :
    exec i s = .next { s with regs := s.regs.set opa.toNat (BitVec.ofNat 8 n), pc := s.pc + 3 } := by
  obtain ⟨r, hr, rfl⟩ := h
  rw [exec_of_aluForm_of_value hi ha hb hr, BitVec.ofNat_toNat, BitVec.setWidth_eq]

end

/-! ### The obligations -/

/-- Settles O17: ADD and MUL are the library's arithmetic of bytes; for SUB the residue is split at the borrow. -/
theorem aluAddSubMulWrapModulo256 : Obligations.AluAddSubMulWrapModulo256 := by
  intro a b
  refine ⟨⟨a + b, rfl, BitVec.toNat_add a b⟩, ⟨a - b, rfl, ?residue⟩, ⟨a * b, rfl, BitVec.toNat_mul a b⟩⟩
  case residue =>
    have ha := a.isLt
    have hb := b.isLt
    rw [BitVec.toNat_sub]
    split_ifs <;> omega

/-- Settles O19: each result is the library's bitwise operation, read at bit `i`. -/
theorem aluAndXorAreBitwise : Obligations.AluAndXorAreBitwise := by
  intro a b i _
  exact ⟨⟨a &&& b, rfl, BitVec.getLsbD_and⟩, ⟨a ^^^ b, rfl, BitVec.getLsbD_xor⟩⟩

/-- Settles O30: each of the seven rows has R149's shape with its own field of OPC, and the rules of that shape give
every clause; that the error is DIV and MOD by 0 is `alu_divisionByZero`. -/
theorem aluInstructionsShareOneShape : Obligations.AluInstructionsShareOneShape := by
  intro opa opb s i op code hrow
  have hshape : aluForm i = some (op, opa, opb) ∧ s.cfg.opc.byte i.mnemonic = code := by
    simp only [List.mem_cons, List.not_mem_nil, or_false, Prod.mk.injEq] at hrow
    rcases hrow with ⟨rfl, rfl, rfl⟩ | ⟨rfl, rfl, rfl⟩ | ⟨rfl, rfl, rfl⟩ | ⟨rfl, rfl, rfl⟩ | ⟨rfl, rfl, rfl⟩ |
      ⟨rfl, rfl, rfl⟩ | ⟨rfl, rfl, rfl⟩ <;> exact ⟨rfl, rfl⟩
  obtain ⟨hi, rfl⟩ := hshape
  refine ⟨encode_of_aluForm hi s.cfg, exec_of_aluForm_of_opa_ge hi, exec_of_aluForm_of_opb_ge hi, fun ha hb =>
    ⟨fun r => exec_of_aluForm_of_value hi ha hb, fun d => exec_of_aluForm_of_divisionByZero hi ha hb,
      alu_ne_flags_of_aluForm hi _ _, ?error⟩⟩
  case error => simp only [alu_divisionByZero, exists_and_left, exists_eq, and_true]

/-- Settles O25: both have R149's shape, over the exact results of O17. -/
theorem addAndMulWriteWrappedResult : Obligations.AddAndMulWriteWrappedResult := by
  intro opa opb s
  refine ⟨rfl, rfl, fun ha hb => ?inRange, fun i hmem => ?badRegister⟩
  case inRange =>
    obtain ⟨hadd, -, hmul⟩ := aluAddSubMulWrapModulo256 s.regs[opa.toNat] s.regs[opb.toNat]
    exact ⟨exec_of_aluForm_of_toNat rfl ha hb hadd, exec_of_aluForm_of_toNat rfl ha hb hmul⟩
  case badRegister =>
    obtain ⟨op, hi⟩ : ∃ op, aluForm i = some (op, opa, opb) := by
      obtain rfl | rfl := List.mem_pair.mp hmem
      · exact ⟨.ADD, rfl⟩
      · exact ⟨.MUL, rfl⟩
    exact ⟨exec_of_aluForm_of_opa_ge hi, exec_of_aluForm_of_opb_ge hi⟩

end Sys2Proof.Machine
end

section
/-! SUPPORT and PROOFS. RET (spec 44_call_return.md R172): what it does on either side of the bound of SP, and the
obligation on it. -/

namespace Sys2Proof.Machine

theorem exec_ret_of_sp_ne {s : State} (h : s.sp ≠ 255) :
    exec .ret s = .next { s with
      regs := s.regs.set 7 (s.sp + 1)
      pc := (Memory.read s.mem s.sp.toNat).setWidth 9 } := by
  rw [State.sp_eq] at h
  rw [exec_eq_complete, blockOf, retBlock_eq, if_neg h, State.complete_ok, State.sp_eq]

theorem exec_ret_of_sp_eq {s : State} (h : s.sp = 255) : exec .ret s = .next (s.raise (.stackUnderflow 255)) := by
  rw [State.sp_eq] at h
  rw [exec_eq_complete, blockOf, retBlock_eq, if_pos h, State.complete_error]

/-- Settles O38: off 255 RET's one register write is that of SP, and widening the popped byte to the nine bits
of `pc` keeps its number; at 255 SP's bound check raises. -/
theorem retPopsProgramCounter : Obligations.RetPopsProgramCounter := by
  intro s
  refine ⟨rfl, fun h => ⟨_, exec_ret_of_sp_ne h, ?pc, ?sp, ?otherRegs, rfl⟩, fun h => exec_ret_of_sp_eq h⟩
  case pc => exact BitVec.toNat_setWidth_of_le (by decide)
  case sp => exact Vector.getElem_set_self (by decide)
  case otherRegs => exact sameRegsExcept_of_regs_eq_set (by decide) rfl

end Sys2Proof.Machine
end

section
/-! SUPPORT and PROOFS. JMP and the conditional branches (spec 45_branch.md R180 to R187): one rule per outcome of R187's
block, stated over `branchForm`, in which JMP is the branch that is always taken, and the two obligations. -/

namespace Sys2Proof.Machine

/-! ### The shape of the branches -/

theorem encode_of_branchForm {f : Flags} {i : Instr} {taken : Bool} {opa : Byte}
    (hi : branchForm f i = some (taken, opa)) (cfg : Config) : encode cfg i = [cfg.opc.byte i.mnemonic, opa] := by
  cases i <;> cases hi <;> rfl

theorem exec_of_branchForm {s : State} {i : Instr} {taken : Bool} {opa : Byte}
    (hi : branchForm s.flags i = some (taken, opa)) : exec i s = s.complete (branchBlock taken opa s) := by
  cases i <;> cases hi <;> rfl

theorem Flags.takesJne_iff (f : Flags) : f.takesJne = true ↔ f.E = false := by
  rw [Flags.takesJne, Bool.not_eq_true']

theorem Flags.takesJge_iff (f : Flags) : f.takesJge = true ↔ f.G = true ∨ f.E = true := by
  rw [Flags.takesJge, Bool.or_eq_true]

/-! ### R187, one rule per outcome -/

section
variable {i : Instr} {opa : Byte} {s : State}

/-- R186: a branch that is not taken falls through whatever its operand byte is. -/
theorem exec_of_branchForm_of_not_taken (hi : branchForm s.flags i = some (false, opa)) :
    exec i s = .next { s with pc := s.pc + 2 } := by
  rw [exec_of_branchForm hi, branchBlock_eq, if_neg Bool.false_ne_true, State.complete_ok]

theorem exec_of_branchForm_of_taken_of_lt (hi : branchForm s.flags i = some (true, opa)) (h : opa.toNat < 8) :
    exec i s = .next { s with pc := s.regs[opa.toNat].setWidth 9 } := by
  rw [exec_of_branchForm hi, branchBlock_eq, if_pos rfl, dif_pos h, State.complete_ok]

theorem exec_of_branchForm_of_taken_of_ge (hi : branchForm s.flags i = some (true, opa)) (h : 8 ≤ opa.toNat) :
    exec i s = .next (s.raise (.regOutOfBounds opa.toNat)) := by
  rw [exec_of_branchForm hi, branchBlock_eq, if_pos rfl, dif_neg (Nat.not_lt.mpr h), State.complete_error]

/-- Widening the register to the nine bits of `pc` keeps its number, so a taken branch jumps to the register's value
and changes nothing else. -/
theorem exec_of_branchForm_jumps_to_register (hi : branchForm s.flags i = some (true, opa)) (h : opa.toNat < 8) :
    ∃ t, exec i s = .next t ∧ t.pc.toNat = s.regs[opa.toNat].toNat ∧ t = { s with pc := t.pc } :=
  ⟨_, exec_of_branchForm_of_taken_of_lt hi h, BitVec.toNat_setWidth_of_le (by decide), rfl⟩

end

/-! ### The obligations -/

/-- Settles O43: each of the five rows has the shape of a branch with its own field of OPC, and its flag condition is
when that shape is taken; the rules of the two outcomes give every clause. -/
theorem conditionalBranchesFollowTheirFlags : Obligations.ConditionalBranchesFollowTheirFlags := by
  intro opa s i code taken hrow
  have hshape : ∃ b, branchForm s.flags i = some (b, opa) ∧ (b = true ↔ taken) ∧
      s.cfg.opc.byte i.mnemonic = code := by
    simp only [List.mem_cons, List.not_mem_nil, or_false, Prod.mk.injEq] at hrow
    rcases hrow with ⟨rfl, rfl, rfl⟩ | ⟨rfl, rfl, rfl⟩ | ⟨rfl, rfl, rfl⟩ | ⟨rfl, rfl, rfl⟩ | ⟨rfl, rfl, rfl⟩
    · exact ⟨s.flags.takesJeq, rfl, Iff.rfl, rfl⟩
    · exact ⟨s.flags.takesJne, rfl, s.flags.takesJne_iff, rfl⟩
    · exact ⟨s.flags.takesJlt, rfl, Iff.rfl, rfl⟩
    · exact ⟨s.flags.takesJgt, rfl, Iff.rfl, rfl⟩
    · exact ⟨s.flags.takesJge, rfl, s.flags.takesJge_iff, rfl⟩
  obtain ⟨b, hi, hcond, rfl⟩ := hshape
  refine ⟨encode_of_branchForm hi s.cfg, ?_⟩
  rw [← hcond]
  cases b with
  | false =>
    exact ⟨fun _ => exec_of_branchForm_of_not_taken hi, fun h => absurd h Bool.false_ne_true,
      fun h => absurd h Bool.false_ne_true⟩
  | true =>
    exact ⟨fun h => absurd rfl h, fun _ => exec_of_branchForm_jumps_to_register hi,
      fun _ => exec_of_branchForm_of_taken_of_ge hi⟩

/-- Settles O42: JMP is the branch that is taken whatever the flags are. -/
theorem jmpSetsProgramCounter : Obligations.JmpSetsProgramCounter := by
  intro opa s
  exact ⟨rfl, exec_of_branchForm_jumps_to_register rfl, exec_of_branchForm_of_taken_of_ge rfl⟩

end Sys2Proof.Machine
end

section
/-! SUPPORT and PROOFS. Encoding and decoding as inverses (spec 30_encoding.md R80 to R96): the operand bytes of a
mnemonic's instruction and the instruction of given operand bytes, how many bytes are instructions under a legal OPC,
and the obligations on encoding. -/

namespace Sys2Proof

open Sys2Proof.Machine

/-! ### An instruction and its operand bytes -/

/-- R83: as many bytes of the window are operands as the arity says. -/
theorem Mnemonic.operands_instr (m : Mnemonic) (opa opb : Byte) :
    (m.instr opa opb).operands = [opa, opb].take m.arity := by
  cases m <;> rfl

/-- R81: the operand bytes and the mnemonic are all there is to an instruction. -/
theorem Instr.instr_mnemonic_of_operands_prefix {i : Instr} {opa opb : Byte} (h : i.operands <+: [opa, opb]) :
    i.mnemonic.instr opa opb = i := by
  cases i with
  | hlt | ret => rfl
  | prn a | push a | pop a | call a | jmp a | jeq a | jne a | jlt a | jgt a | jge a =>
    obtain ⟨rfl, -⟩ := List.cons_prefix_cons.mp h
    rfl
  | ldi a b | mul a b | add a b | cmp a b | sub a b | div a b | mod a b | and a b | xor a b =>
    obtain ⟨rfl, hb⟩ := List.cons_prefix_cons.mp h
    obtain ⟨rfl, -⟩ := List.cons_prefix_cons.mp hb
    rfl

theorem Mnemonic.arity_le_two (m : Mnemonic) : m.arity ≤ 2 := by
  cases m <;> decide

/-- R80: an encoding is `1 + arity` bytes long. -/
theorem encode_length (cfg : Config) (i : Instr) : (encode cfg i).length = 1 + i.mnemonic.arity := by
  cases i <;> rfl

/-- What a window decodes to is the instruction of the mnemonic the lookup finds. -/
theorem decode_eq_ok_iff {cfg : Config} {ir opa opb : Byte} {i : Instr} :
    decode cfg ir opa opb = .ok i ↔ ∃ m, cfg.lookup ir = some m ∧ m.instr opa opb = i := by
  unfold decode
  cases cfg.lookup ir <;> simp

/-- R96: a mnemonic's instruction depends on no operand byte beyond its arity. -/
theorem Mnemonic.instr_eq_of_take_eq {m : Mnemonic} {a a' b b' : Byte}
    (h : [a, b].take m.arity = [a', b'].take m.arity) : m.instr a b = m.instr a' b' := by
  have hops : (m.instr a b).operands <+: [a', b'] := by
    rw [Mnemonic.operands_instr, h]
    exact List.take_prefix _ _
  have hinstr := Instr.instr_mnemonic_of_operands_prefix hops
  rw [Mnemonic.mnemonic_instr] at hinstr
  exact hinstr.symm

/-! ### How many bytes are instructions -/

theorem Config.lookup_isSome_iff {cfg : Config} {ir : Byte} :
    (cfg.lookup ir).isSome = true ↔ ∃ m, cfg.dispatches m = true ∧ cfg.opc.byte m = ir := by
  rw [← Option.ne_none_iff_isSome, ne_eq, Config.lookup_none]
  push Not
  rfl

/-- Under a legal OPC there are as many instruction bytes as dispatched mnemonics, because the map from the one to the
other is injective (R85). -/
theorem Config.countP_lookup_isSome {cfg : Config} (hl : cfg.legal = true) :
    ((List.range 256).countP fun b => (cfg.lookup (BitVec.ofNat 8 b)).isSome) =
      Mnemonic.all.countP fun m => cfg.dispatches m := by
  obtain ⟨-, hinj⟩ := (Config.legal_iff cfg).mp hl
  rw [List.countP_eq_length_filter, List.countP_eq_length_filter,
    ← List.length_map (as := Mnemonic.all.filter _) fun m => (cfg.opc.byte m).toNat]
  refine List.Perm.length_eq ((List.perm_ext_iff_of_nodup (List.nodup_range.filter _) ?nodup).mpr fun b => ?mem)
  case nodup =>
    refine List.Nodup.map_on (fun m hm m' hm' hb => ?_) (List.Nodup.filter _ (by decide))
    exact hinj m m' (List.of_mem_filter hm) (List.of_mem_filter hm') (BitVec.eq_of_toNat_eq hb)
  case mem =>
    simp only [List.mem_filter, List.mem_range, Config.lookup_isSome_iff, List.mem_map, Mnemonic.mem_all, true_and]
    constructor
    · rintro ⟨hb, m, hm, he⟩
      exact ⟨m, hm, by rw [he, BitVec.toNat_ofNat, Nat.mod_eq_of_lt hb]⟩
    · rintro ⟨m, hm, rfl⟩
      exact ⟨(cfg.opc.byte m).isLt, m, hm, by rw [BitVec.ofNat_toNat, BitVec.setWidth_eq]⟩

/-! ### The obligations -/

/-- Settles O6: the window's first byte is the instruction's own opcode byte, which the lookup finds because OPC is
legal, and its operand bytes give back the instruction. -/
theorem decodeOfEncodeIsIdentity : Obligations.DecodeOfEncodeIsIdentity := by
  intro cfg i ir opa opb hl hi h
  obtain ⟨rfl, hops⟩ := List.cons_prefix_cons.mp h
  rw [decode_of_lookup (Config.lookup_byte hl hi), Instr.instr_mnemonic_of_operands_prefix hops]

/-- Settles O7: the lookup finds a dispatched mnemonic with the window's first byte, and the operand bytes of its
instruction are a part of the window by R83. -/
theorem encodeOfDecodeIsWindowPrefix : Obligations.EncodeOfDecodeIsWindowPrefix := by
  intro cfg i ir opa opb h
  obtain ⟨m, hm, rfl⟩ := decode_eq_ok_iff.mp h
  obtain ⟨hdisp, rfl⟩ := Config.lookup_some hm
  refine ⟨by rwa [Instr.wellFormed, Mnemonic.mnemonic_instr], ?isPrefix, encode_length cfg _⟩
  case isPrefix =>
    rw [encode, Mnemonic.mnemonic_instr, Mnemonic.operands_instr, List.cons_prefix_cons]
    exact ⟨rfl, List.take_prefix _ _⟩

/-- Settles O9: the cells from `pc` on begin with the encoding, so they decode to the instruction by O6 and the step is
the instruction. -/
theorem placedEncodingIsWhatRuns : Obligations.PlacedEncodingIsWhatRuns := by
  intro s i hs hl hi hpc hcells
  refine step_of_decode hs (by omega) (decodeOfEncodeIsIdentity s.cfg i _ _ _ hl hi ?isPrefix)
  case isPrefix =>
    refine List.prefix_iff_getElem?.mpr fun k hk => ?_
    have hread := hcells k _ (List.getElem?_eq_getElem hk)
    have harity := i.mnemonic.arity_le_two
    rw [encode_length] at hk
    rw [← hread]
    match k, (show k < 3 by omega) with
    | 0, _ | 1, _ | 2, _ => rfl

/-- Settles O1: each window is looked up in the default map. -/
theorem defaultOpcodeWordsDecode : Obligations.DefaultOpcodeWordsDecode :=
  ⟨rfl, rfl, rfl, rfl, rfl, rfl, rfl, rfl, rfl, rfl, rfl, rfl, rfl, rfl, rfl, rfl, rfl, rfl, rfl, rfl, rfl⟩

/-- Settles O2: both configurations are legal, so the instruction bytes are counted by the dispatched mnemonics. -/
theorem defaultMapsDecodeSixteenOrTwentyOneBytes : Obligations.DefaultMapsDecodeSixteenOrTwentyOneBytes := by
  have hdefault : defaultConfig.legal = true := by decide
  have htable : tableConfig.legal = true := by decide
  refine ⟨hdefault, htable, ?_, ?_⟩
  · rw [Config.countP_lookup_isSome hdefault]; decide
  · rw [Config.countP_lookup_isSome htable]; decide

/-- Settles O4: no dispatched mnemonic of a legal OPC has the byte 0x00. -/
theorem zeroByteIsNoInstruction : Obligations.ZeroByteIsNoInstruction := by
  intro cfg opa opb hl
  obtain ⟨hzero, -⟩ := (Config.legal_iff cfg).mp hl
  exact decode_of_lookup_none (Config.lookup_none.mpr hzero) opa opb

/-- Settles O5: the window decodes to the looked-up mnemonic's instruction, which reads `arity` operand bytes. -/
theorem unusedOperandBytesAreIgnored : Obligations.UnusedOperandBytesAreIgnored := by
  intro cfg ir a a' b b' m hm
  simp only [decode_of_lookup hm]
  exact ⟨fun h => congrArg _ (Mnemonic.instr_eq_of_take_eq (by rw [h]; rfl)),
    fun h => congrArg _ (Mnemonic.instr_eq_of_take_eq (by rw [h]; rfl))⟩

end Sys2Proof
end

section
/-! SUPPORT and PROOFS. What an instruction leaves alone and where `pc` goes, read off the states it completes in (spec
10_state.md R22, R26 to R35, R51), and the obligations on every instruction's frame and on `pc`. -/

namespace Sys2Proof.Machine

/-! ### Frames of a state -/

theorem sameRegsExcept_of_regs_eq {s t : State} (h : t.regs = s.regs) (ws : List Nat) : sameRegsExcept ws s t :=
  fun _ _ => by rw [h]

theorem sameMemExcept_of_mem_eq {s t : State} (h : t.mem = s.mem) (addrs : List Nat) : sameMemExcept addrs s t :=
  fun _ _ => by rw [h]

/-- Two registers set one after the other leave the six others alone. -/
theorem sameRegsExcept_of_regs_eq_set_set {s t : State} {i j : Nat} (hi : i < 8) (hj : j < 8) {v w : Byte}
    (ht : t.regs = (s.regs.set i v).set j w) : sameRegsExcept [i, j] s t := by
  intro r hr
  obtain ⟨hri, hrj⟩ : i ≠ r.val ∧ j ≠ r.val := by
    simpa [eq_comm] using hr
  rw [ht]
  exact (Vector.getElem_set_ne hj r.isLt hrj).trans (Vector.getElem_set_ne hi r.isLt hri)

/-- R149: the storing ALU instructions write `x[opa]` and no other register. -/
theorem regWriteSet_of_aluForm {i : Instr} {op : AluOp} {opa opb : Byte} (hi : aluForm i = some (op, opa, opb)) :
    regWriteSet i = [opa.toNat] := by
  cases i <;> cases hi <;> rfl

/-! ### What completing changes -/

theorem Effect.sameRegsExcept_regWriteSet {s t : State} {i : Instr} (h : Effect s i t) :
    sameRegsExcept (regWriteSet i) s t := by
  cases h with
  | hlt | prn | cmp | jump | fallThrough => exact sameRegsExcept_of_regs_eq rfl _
  | ldi h => exact sameRegsExcept_of_regs_eq_set h rfl
  | alu hi ha => exact regWriteSet_of_aluForm hi ▸ sameRegsExcept_of_regs_eq_set ha rfl
  | push | call | ret => exact sameRegsExcept_of_regs_eq_set (by decide) rfl
  | pop h => exact sameRegsExcept_of_regs_eq_set_set h (by decide) rfl

theorem Effect.sameMemExcept_memWriteSet {s t : State} {i : Instr} (h : Effect s i t) :
    sameMemExcept (memWriteSet i s) s t := by
  cases h with
  | push | call => exact sameMemExcept_of_mem_eq_write rfl
  | hlt | ldi | prn | alu | cmp | pop | ret | jump | fallThrough => exact sameMemExcept_of_mem_eq rfl _

/-- Only CMP completes with other flags than it began with (R30). -/
theorem Effect.mnemonic_of_flags_ne {s t : State} {i : Instr} (h : Effect s i t) (hne : t.flags ≠ s.flags) :
    i.mnemonic = .CMP := by
  cases h with
  | cmp => rfl
  | hlt | ldi | prn | alu | push | pop | call | ret | jump | fallThrough => exact absurd rfl hne

/-- OUT is as before, or PRN has appended one value (R35). -/
theorem Effect.out_cases {s t : State} {i : Instr} (h : Effect s i t) :
    t.out = s.out ∨ i.mnemonic = .PRN ∧ ∃ v, t.out = s.out ++ [v] := by
  cases h with
  | prn => exact .inr ⟨rfl, _, rfl⟩
  | hlt | ldi | alu | cmp | push | pop | call | ret | jump | fallThrough => exact .inl rfl

/-- Memory is as before, or one cell of the address space is written (R51). -/
theorem Effect.mem_cases {s t : State} {i : Instr} (h : Effect s i t) :
    t.mem = s.mem ∨ ∃ a v : Byte, t.mem = Memory.write s.mem a.toNat v := by
  cases h with
  | push | call => exact .inr ⟨_, _, rfl⟩
  | hlt | ldi | prn | alu | cmp | pop | ret | jump | fallThrough => exact .inl rfl

/-! ### Where `pc` goes -/

/-- R105: a sequential advance from an address that can be fetched is the exact sum, 256 included. -/
theorem State.advance_pc_toNat {s : State} {k : Pc} (hs : s.pc.toNat ≤ 253) (hk : k.toNat ≤ 3) :
    (s.advance k).pc.toNat = s.pc.toNat + k.toNat := by
  rw [State.advance_pc, BitVec.toNat_add, Nat.mod_eq_of_lt (by omega)]

theorem setWidth_pc_lt (b : Byte) : (b.setWidth 9).toNat < 256 :=
  (BitVec.toNat_setWidth_of_le (by decide)).trans_lt b.isLt

/-- A completed instruction leaves `pc` at a byte value, which it jumped to, or at most three bytes further on. -/
theorem Effect.pc_bound {s t : State} {i : Instr} (h : Effect s i t) (hpc : s.pc.toNat ≤ 253) :
    t.pc.toNat < 256 ∨ t.pc.toNat ≤ s.pc.toNat + 3 := by
  cases h with
  | hlt => exact .inr ((State.advance_pc_toNat (k := 1) hpc (by decide)).trans_le (by simp))
  | prn | push | pop | fallThrough => exact .inr ((State.advance_pc_toNat (k := 2) hpc (by decide)).trans_le (by simp))
  | ldi | alu | cmp => exact .inr (State.advance_pc_toNat (k := 3) hpc (by decide)).le
  | call | ret | jump => exact .inl (setWidth_pc_lt _)

/-- R26: an instruction that is neither CALL, RET nor a branch goes on behind its own bytes. -/
theorem pcAfter_eq_advance_arity {i : Instr}
    (hi : i.mnemonic ∉ [Mnemonic.CALL, .RET, .JMP, .JEQ, .JNE, .JLT, .JGT, .JGE]) (s : State) :
    pcAfter i s = (s.advance (BitVec.ofNat 9 (1 + i.mnemonic.arity))).pc := by
  cases i with
  | call | ret | jmp | jeq | jne | jlt | jgt | jge => exact absurd (by simp [Instr.mnemonic]) hi
  | hlt | ldi | prn | mul | add | cmp | push | pop | sub | div | mod | and | xor => rfl

/-- A raise leaves `pc` where it was; an instruction completes only from an address that can be fetched. -/
theorem step_pc_bound {s t : State} (h : step s = .next t) :
    t.pc.toNat = s.pc.toNat ∨ s.pc.toNat ≤ 253 ∧ (t.pc.toNat < 256 ∨ t.pc.toNat ≤ s.pc.toNat + 3) := by
  obtain ⟨-, ⟨k, rfl, -⟩ | ⟨i, hlt, -, hexec⟩⟩ := step_cases h
  · exact .inl rfl
  · rcases exec_inversion hexec with he | ⟨k, -, rfl⟩
    · exact .inr ⟨by omega, he.pc_bound (by omega)⟩
    · exact .inl rfl

/-! ### The obligations -/

/-- Settles O45: a raise changes neither registers nor memory, and each state of completion keeps to the write sets. -/
theorem everyInstructionKeepsOtherRegistersAndCells : Obligations.EveryInstructionKeepsOtherRegistersAndCells := by
  intro i s t h
  rcases exec_inversion h with he | ⟨k, -, rfl⟩
  · exact ⟨he.sameRegsExcept_regWriteSet, he.sameMemExcept_memWriteSet⟩
  · exact ⟨sameRegsExcept_of_regs_eq rfl _, sameMemExcept_of_mem_eq rfl _⟩

/-- Settles O46: a raise keeps the flags, and of the states of completion only CMP's has others. -/
theorem onlyCmpChangesFlags : Obligations.OnlyCmpChangesFlags := by
  intro i s t h hne
  rcases exec_inversion h with he | ⟨k, -, rfl⟩
  · exact he.mnemonic_of_flags_ne hne
  · exact absurd rfl hne

/-- Settles O47: a raise keeps Halted, OUT and the configuration; completing changes Halted in HLT's state only, OUT in
PRN's, and the configuration nowhere. -/
theorem onlyHltHaltsAndOnlyPrnOutputs : Obligations.OnlyHltHaltsAndOnlyPrnOutputs := by
  intro i s t h
  rcases exec_inversion h with he | ⟨k, -, rfl⟩
  · obtain ⟨hcfg, -, -⟩ := he.keeps_latch
    refine ⟨fun hne => ?halted, he.out_cases.resolve_left, hcfg⟩
    case halted =>
      obtain rfl := he.eq_hlt_of_halted_ne hne
      exact ⟨rfl, congrArg State.halted (Effect.hlt_iff.mp he)⟩
  · exact ⟨fun hne => absurd rfl hne, fun hne => absurd rfl hne, rfl⟩

/-- Settles O49: a raise leaves `pc` where it was; a completed instruction stood at 253 or below, so its jump is a byte
and its advance the exact sum, at most 256. -/
theorem programCounterNeverWraps : Obligations.ProgramCounterNeverWraps := by
  refine ⟨fun s k => State.advance_pc_toNat, fun s t hpc h => ⟨?atMost, ?only, fun i hd hf hi => ?behind⟩⟩
  case behind =>
    obtain ⟨j, hj, hdj, he⟩ := step_completes_of_noFault h hf
    obtain rfl : i = j := Except.ok.inj (hd.symm.trans hdj)
    have harity := i.mnemonic.arity_le_two
    rw [he.pc_eq_pcAfter, pcAfter_eq_advance_arity hi, encode_length,
      State.advance_pc_toNat (by omega) (by rw [BitVec.toNat_ofNat]; omega), BitVec.toNat_ofNat,
      Nat.mod_eq_of_lt (by omega)]
  all_goals rcases step_pc_bound h with heq | ⟨hle, hlt | hle'⟩ <;> omega

end Sys2Proof.Machine
end

section
/-! SUPPORT and PROOFS. Reset, the load port and the invariant of 10_state.md R39: what placing an image leaves in each
cell, that launch states meet the invariant, that every step keeps it, and the obligations on reset, launch, single
steps and whole runs (spec 10_state.md R38, R39; 70_reset_and_hazards.md R240, R242; 40_fetch_decode_execute.md R107,
R108). -/

namespace Sys2Proof.Machine

/-! ### Placing an image -/

/-- Placing bytes that fit writes each of them to its cell and leaves every other cell alone (R242). -/
theorem Memory.read_place {m : List Host.Cell} (hm : Memory.wf m = true) {a : Nat} {bs : List Byte}
    (hfit : a + bs.length ≤ 256) (c : Nat) :
    Memory.read (Memory.place m a bs) c = if a ≤ c then (bs[c - a]?).getD (Memory.read m c) else Memory.read m c := by
  by_cases hac : a ≤ c
  swap
  · rw [if_neg hac, Memory.read_place_below m a bs (by omega)]
  rw [if_pos hac]
  induction bs generalizing m a with
  | nil => rfl
  | cons b bs ih =>
    rw [List.length_cons] at hfit
    have ha : a < 256 := by omega
    rw [Memory.place, if_pos ha]
    rcases Nat.eq_or_lt_of_le hac with rfl | hlt
    · rw [Memory.read_place_below _ _ _ (by omega), Memory.read_write_same hm, Nat.sub_self]
      rfl
    · rw [ih (Memory.write_wf hm ha b) (by omega) hlt, Memory.read_write_other m b (by omega),
        show c - a = (c - (a + 1)) + 1 by omega, List.getElem?_cons_succ]

/-! ### Launch states -/

/-- There is a launch state exactly for an image that fits, and it is reset's but for the configuration and memory. -/
theorem launch_eq_some_iff {cfg : Config} {image : List Byte} {s : State} :
    launch cfg image = some s ↔
      image.length ≤ 256 ∧ s = { State.reset with cfg := cfg, mem := Memory.place [] 0 image } := by
  unfold launch State.load imageFits
  by_cases h : image.length ≤ 256
  · rw [if_pos (decide_eq_true h), Option.some.injEq]
    exact ⟨fun e => ⟨h, e.symm⟩, fun e => e.2.symm⟩
  · rw [if_neg (by simpa using h)]
    exact ⟨fun e => (nomatch e), fun e => absurd e.1 h⟩

/-- A state that reads like reset but for its configuration and a canonical memory meets the invariant. -/
theorem State.reset_with_inv (cfg : Config) {mem : List Host.Cell} (hm : Memory.wf mem = true) :
    State.Inv { State.reset with cfg := cfg, mem := mem } where
  memCanonical := hm
  pcInRange := by simp
  flagsAtMostOne := rfl
  notHaltedAndFaulted := by simp
  latch := .inl ⟨rfl, rfl⟩

/-! ### Every step keeps the invariant -/

/-- A running state that meets the invariant has nothing in FAULT_INFO. -/
theorem State.Inv.faultInfo_eq_none {s : State} (hinv : s.Inv) (hs : s.running) : s.faultInfo = none := by
  rcases hinv.latch with ⟨-, h⟩ | ⟨k, hk, -⟩
  · exact h
  · exact absurd (hk.symm.trans hs.2) k.kind_ne_noFault

/-- A fault taken in a running state keeps the invariant: it changes the latch, and latches info and `pc` together. -/
theorem State.Inv.raise {s : State} (hinv : s.Inv) (hs : s.running) (k : Raise) : (s.raise k).Inv where
  memCanonical := hinv.memCanonical
  pcInRange := hinv.pcInRange
  flagsAtMostOne := hinv.flagsAtMostOne
  notHaltedAndFaulted := fun h => Bool.false_ne_true (hs.1.symm.trans h.1)
  latch := .inr ⟨k, rfl, rfl⟩

/-- The unsigned comparison sets at most one flag (R139). -/
theorem compareFlags_atMostOne (a b : Byte) : (compareFlags a b).atMostOne = true := by
  simp only [compareFlags, Flags.atMostOne, Bool.and_eq_true, Bool.not_eq_true', Bool.and_eq_false_iff,
    decide_eq_false_iff_not]
  omega

/-- The flags stay at most one: CMP writes a comparison's, and no other instruction writes any (R30). -/
theorem Effect.flags_atMostOne {s t : State} {i : Instr} (h : Effect s i t) (hs : s.flags.atMostOne = true) :
    t.flags.atMostOne = true := by
  cases h with
  | cmp => exact compareFlags_atMostOne _ _
  | hlt | ldi | prn | alu | push | pop | call | ret | jump | fallThrough => exact hs

theorem Effect.mem_wf {s t : State} {i : Instr} (h : Effect s i t) (hs : Memory.wf s.mem = true) :
    Memory.wf t.mem = true := by
  rcases h.mem_cases with hmem | ⟨a, v, hmem⟩ <;> rw [hmem]
  · exact hs
  · exact Memory.write_wf hs a.isLt v

/-- An instruction that completes from a running state that can be fetched from keeps the invariant. -/
theorem State.Inv.effect {s t : State} {i : Instr} (hinv : s.Inv) (hs : s.running) (hpc : s.pc.toNat < 254)
    (h : Effect s i t) : t.Inv := by
  obtain ⟨-, hfault, hinfo⟩ := h.keeps_latch
  have hfault' : t.fault = .noFault := hfault.trans hs.2
  exact {
    memCanonical := h.mem_wf hinv.memCanonical
    pcInRange := by have := h.pc_bound (by omega); omega
    flagsAtMostOne := h.flags_atMostOne hinv.flagsAtMostOne
    notHaltedAndFaulted := fun hboth => hboth.2 hfault'
    latch := .inl ⟨hfault', hinfo.trans (hinv.faultInfo_eq_none hs)⟩ }

/-! ### OUT and the configuration along a step -/

theorem step_out_cases {s t : State} (h : step s = .next t) : t.out = s.out ∨ ∃ v, t.out = s.out ++ [v] := by
  obtain ⟨-, ⟨k, rfl, -⟩ | ⟨i, -, -, hexec⟩⟩ := step_cases h
  · exact .inl rfl
  · rcases exec_inversion hexec with he | ⟨k, -, rfl⟩
    · exact he.out_cases.imp_right And.right
    · exact .inl rfl

theorem step_cfg {s t : State} (h : step s = .next t) : t.cfg = s.cfg := by
  obtain ⟨-, ⟨k, rfl, -⟩ | ⟨i, -, -, hexec⟩⟩ := step_cases h
  · rfl
  · rcases exec_inversion hexec with he | ⟨k, -, rfl⟩
    · obtain ⟨hcfg, -, -⟩ := he.keeps_latch
      exact hcfg
    · rfl

/-! ### How a run stops -/

/-- A step that answers a fault says which of the two quiescent conditions it found (R107). -/
theorem step_fault_cases {s : State} {f : Fault} (h : step s = .fault f) :
    s.halted = true ∧ f = .halted ∨ s.aborted ∧ f = .faulted := by
  by_cases hh : s.halted = true
  · rw [step_halted hh] at h
    cases h
    exact .inl ⟨hh, rfl⟩
  have hh' : s.halted = false := by simpa using hh
  by_cases hf : s.fault = .noFault
  · obtain ⟨t, ht⟩ := step_answers_next ⟨hh', hf⟩
    rw [ht] at h
    cases h
  · rw [step_faulted hh' hf] at h
    cases h
    exact .inr ⟨⟨hh', hf⟩, rfl⟩

/-- A run that stops with a fault stops in a state that a shorter run reached. -/
theorem core_run_fault {n : Nat} {s : State} {f : Fault} (h : Sys2Proof.core.run n s = .fault f) :
    ∃ (m : Nat) (t : State), m < n ∧ Sys2Proof.core.run m s = .next t ∧ step t = .fault f := by
  induction n generalizing s with
  | zero => cases h
  | succ n ih =>
    rw [core_run_succ] at h
    cases hs : step s with
    | next u =>
      rw [hs] at h
      obtain ⟨m, t, hm, hrun, ht⟩ := ih h
      refine ⟨m + 1, t, by omega, ?_, ht⟩
      rw [core_run_succ, hs]
      exact hrun
    | fault r =>
      rw [hs] at h
      cases h
      exact ⟨0, s, by omega, core_run_zero s, hs⟩
    | refused r => exact absurd hs (step_ne_refused s r)

theorem core_run_ne_refused (n : Nat) (s : State) (r : Refusal) : Sys2Proof.core.run n s ≠ .refused r := by
  induction n generalizing s with
  | zero => exact fun h => nomatch h
  | succ n ih =>
    rw [core_run_succ]
    cases hs : step s with
    | next u => exact ih u
    | fault f => exact fun h => nomatch h
    | refused r' => exact absurd hs (step_ne_refused s r')

/-! ### The obligations -/

/-- Settles O56: a step is a fault taken in its running state or an instruction that completes from an address that can
be fetched, and both keep the invariant. -/
theorem stepKeepsInvariant : Obligations.StepKeepsInvariant := by
  intro s t hinv h
  obtain ⟨hs, ⟨k, rfl, -⟩ | ⟨i, hpc, -, hexec⟩⟩ := step_cases h
  · exact hinv.raise hs k
  · rcases exec_inversion hexec with he | ⟨k, -, rfl⟩
    · exact hinv.effect hs hpc he
    · exact hinv.raise hs k

/-- Settles O57: a step keeps OUT or appends one value to it, and keeps the configuration. -/
theorem outOnlyGrowsAndConfigurationStays : Obligations.OutOnlyGrowsAndConfigurationStays := by
  intro s t h
  rcases step_out_cases h with hout | ⟨v, hout⟩ <;> rw [hout]
  · exact ⟨List.prefix_rfl, Nat.le_succ _, step_cfg h⟩
  · exact ⟨List.prefix_append _ _, by simp, step_cfg h⟩

/-- Settles O15: both states are reset's element by element; only the configuration may differ. -/
theorem resetGivesTabulatedValues : Obligations.ResetGivesTabulatedValues := by
  intro s t ht
  have hregs : ∀ r : Fin 8, State.reset.regs[r] = if r.val = 7 then 0xF4 else 0x00 := by decide
  obtain rfl | rfl := List.mem_pair.mp ht
  all_goals exact ⟨hregs, rfl, rfl, rfl, rfl, rfl, fun _ => rfl, rfl⟩

/-- Settles O16: the launch state is reset's with the image placed in empty memory. -/
theorem launchPlacesImageFromZero : Obligations.LaunchPlacesImageFromZero := by
  intro cfg image
  refine ⟨fun h => ⟨_, launch_eq_some_iff.mpr ⟨h, rfl⟩, fun a => ?cells, rfl⟩, fun h => ?tooLong⟩
  case cells => exact (Memory.read_place rfl (by omega) a).trans (if_pos a.zero_le)
  case tooLong =>
    refine Option.eq_none_iff_forall_ne_some.mpr fun s hs => ?_
    obtain ⟨hle, -⟩ := launch_eq_some_iff.mp hs
    omega

/-- Settles O55: reset is the launch of the empty image, and placing an image keeps memory canonical. -/
theorem launchStatesSatisfyInvariant : Obligations.LaunchStatesSatisfyInvariant := by
  refine ⟨State.reset_with_inv defaultConfig rfl, ⟨rfl, rfl⟩, fun cfg image s h => ?_⟩
  obtain ⟨-, rfl⟩ := launch_eq_some_iff.mp h
  exact ⟨State.reset_with_inv cfg (Memory.place_wf rfl 0 image), rfl, rfl⟩

/-- What O56 and O57 say of a step holds of every run. -/
theorem core_run_keeps {n : Nat} {s t : State} (h : Sys2Proof.core.run n s = .next t) :
    (s.Inv → t.Inv) ∧ s.out <+: t.out ∧ t.cfg = s.cfg := by
  refine core_run_induction (P := fun s t => (s.Inv → t.Inv) ∧ s.out <+: t.out ∧ t.cfg = s.cfg)
    (fun s => ⟨id, List.prefix_rfl, rfl⟩) ?_ n s t h
  rintro s t u ⟨hinv, hout, hcfg⟩ hstep
  obtain ⟨hout', -, hcfg'⟩ := outOnlyGrowsAndConfigurationStays t u hstep
  exact ⟨fun hs => stepKeepsInvariant t u (hinv hs) hstep, hout.trans hout', hcfg'.trans hcfg⟩

/-- Settles O58: the launch state meets the invariant and every step keeps it (O55, O56), with OUT and the configuration
as O57 says; a run that stops does so in a state it reached, where the invariant excludes Halted with Faulted. -/
theorem everyRunOfEveryImageKeepsInvariant : Obligations.EveryRunOfEveryImageKeepsInvariant := by
  intro cfg image s n hlaunch
  obtain ⟨-, -, hlaunchStates⟩ := launchStatesSatisfyInvariant
  obtain ⟨hinv, -⟩ := hlaunchStates cfg image s hlaunch
  obtain ⟨-, hs⟩ := launch_eq_some_iff.mp hlaunch
  have hcfg : s.cfg = cfg := congrArg State.cfg hs
  have hkeeps : ∀ (m : Nat) (t : State), Sys2Proof.core.run m s = .next t → t.Inv ∧ s.out <+: t.out ∧ t.cfg = cfg := by
    intro m t hrun
    obtain ⟨hinv', hout, hcfg'⟩ := core_run_keeps hrun
    exact ⟨hinv' hinv, hout, hcfg'.trans hcfg⟩
  refine ⟨hkeeps n, fun f hf => ?stops, core_run_ne_refused n s⟩
  case stops =>
    obtain ⟨m, t, hm, hrun, hstop⟩ := core_run_fault hf
    obtain ⟨hinv', -, -⟩ := hkeeps m t hrun
    refine ⟨m, t, hm, hrun, (step_fault_cases hstop).imp_left fun ⟨hh, hkind⟩ => ⟨⟨hh, ?_⟩, hkind⟩⟩
    by_contra hfault
    exact hinv'.notHaltedAndFaulted ⟨hh, hfault⟩

end Sys2Proof.Machine
end

section
/-! SUPPORT and PROOFS. Division, the comparison and the flags (spec 42_alu.md R134, R135, R138, R139; 10_state.md R31),
CMP and the instructions of the option (R142 to R147), whose rules are those of R149's shape, and their obligations. -/

namespace Sys2Proof.Machine

/-! ### Division -/

theorem alu_div_of_ne_zero {b : Byte} (h : b ≠ 0) (a : Byte) : alu .DIV a b = .value (a / b) := by
  rw [alu, if_neg h]

theorem alu_mod_of_ne_zero {b : Byte} (h : b ≠ 0) (a : Byte) : alu .MOD a b = .value (a % b) := by
  rw [alu, if_neg h]

/-! ### The comparison -/

theorem compareFlags_of_eq {a b : Byte} (h : a.toNat = b.toNat) :
    compareFlags a b = { E := true, G := false, L := false } := by
  simp [compareFlags, h]

theorem compareFlags_of_gt {a b : Byte} (h : b.toNat < a.toNat) :
    compareFlags a b = { E := false, G := true, L := false } := by
  simp [compareFlags, h, h.ne', h.le]

theorem compareFlags_of_lt {a b : Byte} (h : a.toNat < b.toNat) :
    compareFlags a b = { E := false, G := false, L := true } := by
  simp [compareFlags, h, h.ne, h.le]

/-! ### CMP, one rule per outcome -/

section
variable {opa opb : Byte} {s : State}

theorem exec_cmp_of_lt (ha : opa.toNat < 8) (hb : opb.toNat < 8) :
    exec (.cmp opa opb) s =
      .next { s with flags := compareFlags s.regs[opa.toNat] s.regs[opb.toNat], pc := s.pc + 3 } := by
  rw [exec_eq_complete, blockOf, aluBlock_eq, dif_pos ha, dif_pos hb, alu, aluStore, State.complete_ok]

theorem exec_cmp_of_opa_ge (ha : 8 ≤ opa.toNat) :
    exec (.cmp opa opb) s = .next (s.raise (.regOutOfBounds opa.toNat)) := by
  rw [exec_eq_complete, blockOf, aluBlock_eq, dif_neg (Nat.not_lt.mpr ha), State.complete_error]

theorem exec_cmp_of_opb_ge (ha : opa.toNat < 8) (hb : 8 ≤ opb.toNat) :
    exec (.cmp opa opb) s = .next (s.raise (.regOutOfBounds opb.toNat)) := by
  rw [exec_eq_complete, blockOf, aluBlock_eq, dif_pos ha, dif_neg (Nat.not_lt.mpr hb), State.complete_error]

end

/-! ### The obligations -/

/-- Settles O18: the quotient and the remainder of bytes are those of their numbers, so the laws are the library's. -/
theorem aluDivModAreQuotientAndRemainder : Obligations.AluDivModAreQuotientAndRemainder := by
  intro a b
  refine ⟨fun hb => ⟨alu_divisionByZero.mpr ⟨.inl rfl, hb, rfl⟩, alu_divisionByZero.mpr ⟨.inr rfl, hb, rfl⟩⟩,
    fun hb => ⟨a / b, a % b, alu_div_of_ne_zero hb a, alu_mod_of_ne_zero hb a, BitVec.toNat_udiv, ?quotient, ?remainder,
      ?division⟩⟩
  case quotient =>
    rw [BitVec.toNat_udiv]
    exact Nat.div_le_self _ _
  case remainder =>
    have hpos : 0 < b.toNat := Nat.pos_of_ne_zero fun h => hb (BitVec.eq_of_toNat_eq h)
    rw [BitVec.toNat_umod]
    exact Nat.mod_lt _ hpos
  case division =>
    rw [BitVec.toNat_udiv, BitVec.toNat_umod]
    exact Nat.div_add_mod' _ _

/-- Settles O20: each flag is its own comparison, and the three orders of two numbers give the three flag states. -/
theorem comparisonSetsExactlyOneFlag : Obligations.ComparisonSetsExactlyOneFlag := by
  refine ⟨fun a b => ⟨compareFlags a b, rfl, decide_eq_true_iff, decide_eq_true_iff, decide_eq_true_iff, ?one⟩,
    fun f hf => ?reachable⟩
  case one =>
    rcases Nat.lt_trichotomy a.toNat b.toNat with h | h | h
    · simp [compareFlags_of_lt h]
    · simp [compareFlags_of_eq h]
    · simp [compareFlags_of_gt h]
  case reachable =>
    simp only [List.mem_cons, List.not_mem_nil, or_false] at hf
    rcases hf with rfl | rfl | rfl
    · exact ⟨0, 0, rfl⟩
    · exact ⟨1, 0, rfl⟩
    · exact ⟨0, 1, rfl⟩

/-- Settles O21: each flag has a bit of its own in the packed byte, over the eight values of the three flags. -/
theorem packedFlagsUseThreeDistinctBits : Obligations.PackedFlagsUseThreeDistinctBits := by
  rintro ⟨E, G, L⟩
  revert E G L
  decide

/-- Settles O26: the flags CMP writes are the comparison's of both registers, in each of the three orders. -/
theorem cmpWritesFlagsOnly : Obligations.CmpWritesFlagsOnly := by
  intro opa opb s
  exact ⟨rfl, fun ha hb => ⟨_, exec_cmp_of_lt ha hb, compareFlags_of_eq, compareFlags_of_gt, compareFlags_of_lt⟩,
    exec_cmp_of_opa_ge, exec_cmp_of_opb_ge⟩

/-- Settles O27: the three have R149's shape; the difference of bytes is the residue by `BitVec.toNat_sub`. -/
theorem subAndXorWriteResult : Obligations.SubAndXorWriteResult := by
  intro opa opb s
  refine ⟨fun ha hb => ⟨exec_of_aluForm_of_toNat rfl ha hb ⟨_, rfl, ?residue⟩,
    exec_of_aluForm_of_value rfl ha hb rfl, exec_of_aluForm_of_value rfl ha hb rfl⟩, fun i hmem => ?badRegister⟩
  case residue =>
    rw [BitVec.toNat_sub]
    omega
  case badRegister =>
    obtain ⟨op, hi⟩ : ∃ op, aluForm i = some (op, opa, opb) := by
      simp only [List.mem_cons, List.not_mem_nil, or_false] at hmem
      rcases hmem with rfl | rfl | rfl
      · exact ⟨.SUB, rfl⟩
      · exact ⟨.AND, rfl⟩
      · exact ⟨.XOR, rfl⟩
    exact ⟨exec_of_aluForm_of_opa_ge hi, exec_of_aluForm_of_opb_ge hi⟩

/-- Settles O28: with a divisor other than 0 both have R149's shape over the library's quotient and remainder. -/
theorem divAndModWriteResult : Obligations.DivAndModWriteResult := by
  intro opa opb s ha hb h0
  exact ⟨exec_of_aluForm_of_toNat rfl ha hb ⟨_, alu_div_of_ne_zero h0 _, BitVec.toNat_udiv⟩,
    exec_of_aluForm_of_toNat rfl ha hb ⟨_, alu_mod_of_ne_zero h0 _, BitVec.toNat_umod⟩⟩

/-- Settles O29: both have R149's shape, whose register checks come before the ALU and so before its error. -/
theorem divAndModRaiseInOrder : Obligations.DivAndModRaiseInOrder := by
  intro opa opb s i hmem
  obtain ⟨op, hi, hop⟩ : ∃ op, aluForm i = some (op, opa, opb) ∧ (op = .DIV ∨ op = .MOD) := by
    obtain rfl | rfl := List.mem_pair.mp hmem
    · exact ⟨.DIV, rfl, .inl rfl⟩
    · exact ⟨.MOD, rfl, .inr rfl⟩
  exact ⟨exec_of_aluForm_of_opa_ge hi, exec_of_aluForm_of_opb_ge hi,
    fun ha hb h0 => exec_of_aluForm_of_divisionByZero hi ha hb (alu_divisionByZero.mpr ⟨hop, h0, rfl⟩)⟩

end Sys2Proof.Machine
end

section
/-! SUPPORT and PROOFS. The branch outcome table (spec 45_branch.md R188), from the rules of R187's block. -/

namespace Sys2Proof.Machine

/-- A branch on a register in range changes `pc` alone, taken or not (R186, R187). -/
theorem exec_of_branchForm_of_lt {i : Instr} {s : State} {taken : Bool} {opa : Byte}
    (hi : branchForm s.flags i = some (taken, opa)) (h : opa.toNat < 8) :
    exec i s = .next { s with pc := if taken then s.regs[opa.toNat].setWidth 9 else s.pc + 2 } := by
  cases taken with
  | false => exact exec_of_branchForm_of_not_taken hi
  | true => exact exec_of_branchForm_of_taken_of_lt hi h

/-- Settles O44: each row of the table lists the conditions of the five branches on its flags, and each branch follows
its own. -/
theorem branchOutcomeTable : Obligations.BranchOutcomeTable := by
  intro opa s h flags row hrow hflags
  have hconditions : row =
      [s.flags.takesJeq, s.flags.takesJne, s.flags.takesJlt, s.flags.takesJgt, s.flags.takesJge] := by
    simp only [List.mem_cons, List.not_mem_nil, or_false, Prod.mk.injEq] at hrow
    rcases hrow with ⟨rfl, rfl⟩ | ⟨rfl, rfl⟩ | ⟨rfl, rfl⟩ | ⟨rfl, rfl⟩ <;> rw [hflags] <;> rfl
  rw [hconditions]
  simp only [List.map_cons, List.map_nil, exec_of_branchForm_of_lt (i := .jeq opa) rfl h,
    exec_of_branchForm_of_lt (i := .jne opa) rfl h, exec_of_branchForm_of_lt (i := .jlt opa) rfl h,
    exec_of_branchForm_of_lt (i := .jgt opa) rfl h, exec_of_branchForm_of_lt (i := .jge opa) rfl h]

end Sys2Proof.Machine
end

section
/-! SUPPORT and PROOFS. PUSH, POP and CALL (spec 43_stack.md R160 to R164; 44_call_return.md R170 to R173): one rule per
outcome of each block, register 7 as operand included, the two laws, and the obligations on the stack. -/

namespace Sys2Proof.Machine

/-! ### Rules -/

section
variable {opa : Byte} {s : State}

/-- The register an operand names once SP is decremented: register 7 is then the new SP (D17). -/
theorem getElem_regs_set_sp (h : opa.toNat < 8) (v : Byte) :
    (s.regs.set 7 v)[opa.toNat] = if opa.toNat = 7 then v else s.regs[opa.toNat] := by
  rw [Vector.getElem_set]
  simp only [eq_comm]

theorem exec_push_of_lt (hsp : s.sp ≠ 0) (h : opa.toNat < 8) :
    exec (.push opa) s = .next { s with
      regs := s.regs.set 7 (s.sp - 1)
      mem := Memory.write s.mem (s.sp - 1).toNat (if opa.toNat = 7 then s.sp - 1 else s.regs[opa.toNat])
      pc := s.pc + 2 } := by
  rw [State.sp_eq] at hsp
  rw [exec_eq_complete, blockOf, pushBlock_eq, if_neg hsp, dif_pos h, State.complete_ok, getElem_regs_set_sp h,
    State.sp_eq]

theorem exec_push_of_sp_eq (hsp : s.sp = 0) : exec (.push opa) s = .next (s.raise (.stackOverflow 0)) := by
  rw [State.sp_eq] at hsp
  rw [exec_eq_complete, blockOf, pushBlock_eq, if_pos hsp, State.complete_error]

theorem exec_push_of_ge (hsp : s.sp ≠ 0) (h : 8 ≤ opa.toNat) :
    exec (.push opa) s = .next (s.raise (.regOutOfBounds opa.toNat)) := by
  rw [State.sp_eq] at hsp
  rw [exec_eq_complete, blockOf, pushBlock_eq, if_neg hsp, dif_neg (Nat.not_lt.mpr h), State.complete_error]

theorem exec_call_of_lt (hsp : s.sp ≠ 0) (h : opa.toNat < 8) :
    exec (.call opa) s = .next { s with
      regs := s.regs.set 7 (s.sp - 1)
      mem := Memory.write s.mem (s.sp - 1).toNat (BitVec.ofNat 8 (s.pc.toNat + 2))
      pc := (if opa.toNat = 7 then s.sp - 1 else s.regs[opa.toNat]).setWidth 9 } := by
  rw [State.sp_eq] at hsp
  rw [exec_eq_complete, blockOf, callBlock_eq, if_neg hsp, dif_pos h, State.complete_ok, getElem_regs_set_sp h,
    State.sp_eq]

theorem exec_call_of_sp_eq (hsp : s.sp = 0) : exec (.call opa) s = .next (s.raise (.stackOverflow 0)) := by
  rw [State.sp_eq] at hsp
  rw [exec_eq_complete, blockOf, callBlock_eq, if_pos hsp, State.complete_error]

theorem exec_call_of_ge (hsp : s.sp ≠ 0) (h : 8 ≤ opa.toNat) :
    exec (.call opa) s = .next (s.raise (.regOutOfBounds opa.toNat)) := by
  rw [State.sp_eq] at hsp
  rw [exec_eq_complete, blockOf, callBlock_eq, if_neg hsp, dif_neg (Nat.not_lt.mpr h), State.complete_error]

theorem exec_pop_of_ge (h : 8 ≤ opa.toNat) : exec (.pop opa) s = .next (s.raise (.regOutOfBounds opa.toNat)) := by
  rw [exec_eq_complete, blockOf, popBlock_eq, dif_neg (Nat.not_lt.mpr h), State.complete_error]

/-- What POP is about to increment: SP, or, when it has just written register 7, the popped byte (D17). -/
theorem getElem_seven_set (h : opa.toNat < 8) (v : Byte) :
    (s.regs.set opa.toNat v)[7] = if opa.toNat = 7 then v else s.sp := by
  rw [Vector.getElem_set, State.sp_eq]

theorem exec_pop_of_ne_seven (h : opa.toNat < 8) (h7 : opa.toNat ≠ 7) (hsp : s.sp ≠ 255) :
    exec (.pop opa) s = .next { s with
      regs := (s.regs.set opa.toNat (Memory.read s.mem s.sp.toNat)).set 7 (s.sp + 1)
      pc := s.pc + 2 } := by
  rw [exec_eq_complete, blockOf, popBlock_eq, dif_pos h]
  simp only [getElem_seven_set h, if_neg h7, if_neg hsp, State.complete_ok, ← State.sp_eq]

theorem exec_pop_of_eq_seven (h7 : opa.toNat = 7) (hv : Memory.read s.mem s.sp.toNat ≠ 255) :
    exec (.pop opa) s = .next { s with
      regs := s.regs.set 7 (Memory.read s.mem s.sp.toNat + 1)
      pc := s.pc + 2 } := by
  have h : opa.toNat < 8 := by omega
  rw [exec_eq_complete, blockOf, popBlock_eq, dif_pos h]
  simp only [getElem_seven_set h, if_pos h7, ← State.sp_eq, if_neg hv, State.complete_ok]
  simp only [h7, Vector.set_set]

theorem exec_pop_of_underflow (h : opa.toNat < 8)
    (h255 : (if opa.toNat = 7 then Memory.read s.mem s.sp.toNat else s.sp) = 255) :
    exec (.pop opa) s = .next (s.raise (.stackUnderflow 255)) := by
  rw [exec_eq_complete, blockOf, popBlock_eq, dif_pos h]
  simp only [getElem_seven_set h, ← State.sp_eq, if_pos h255, State.complete_error]

end

/-! ### SP, and what an instruction of the stack leaves -/

/-- R163: SP other than 0 is decremented without a borrow. -/
theorem toNat_sub_one_add_one {b : Byte} (h : b ≠ 0) : (b - 1).toNat + 1 = b.toNat := by
  bv_omega

/-- R163: SP other than 255 is incremented without a carry. -/
theorem toNat_add_one {b : Byte} (h : b ≠ 255) : (b + 1).toNat = b.toNat + 1 := by
  bv_omega

/-- A decremented SP can be incremented. -/
theorem sub_one_ne_255 {b : Byte} (h : b ≠ 0) : b - 1 ≠ 255 := by
  bv_omega

/-- The SP of a state whose register 7 was set. -/
theorem State.sp_of_regs_eq_set {t : State} {regs : Vector Byte 8} {v : Byte} (h : t.regs = regs.set 7 v) :
    t.sp = v := by
  rw [State.sp_eq, h]
  exact Vector.getElem_set_self (by decide)

/-- An instruction that ends with an empty latch has completed: a raise latches a kind (R200). -/
theorem Effect.of_exec_noFault {i : Instr} {s t : State} (h : exec i s = .next t) (hf : t.fault = .noFault) :
    Effect s i t := by
  rcases exec_inversion h with he | ⟨k, -, rfl⟩
  · exact he
  · exact absurd hf k.kind_ne_noFault

theorem Effect.push_inv {s t : State} {opa : Byte} (h : Effect s (.push opa) t) :
    s.sp ≠ 0 ∧ t.regs = s.regs.set 7 (s.sp - 1) := by
  cases h with
  | push _ hsp => exact ⟨hsp, rfl⟩
  | alu hi | jump hi | fallThrough hi => cases hi

theorem Effect.call_inv {s t : State} {opa : Byte} (h : Effect s (.call opa) t) :
    s.sp ≠ 0 ∧ t.regs = s.regs.set 7 (s.sp - 1) ∧
      t.mem = Memory.write s.mem (s.sp - 1).toNat (BitVec.ofNat 8 (s.pc.toNat + 2)) := by
  cases h with
  | call _ hsp => exact ⟨hsp, rfl, rfl⟩
  | alu hi | jump hi | fallThrough hi => cases hi

theorem Effect.ret_inv {s t : State} (h : Effect s .ret t) : s.sp ≠ 255 ∧ t.regs = s.regs.set 7 (s.sp + 1) := by
  cases h with
  | ret hsp => exact ⟨hsp, rfl⟩
  | alu hi | jump hi | fallThrough hi => cases hi

theorem Effect.pop_inv {s t : State} {opa : Byte} (h : Effect s (.pop opa) t) (h7 : opa.toNat ≠ 7) :
    s.sp ≠ 255 ∧ t.sp = s.sp + 1 := by
  cases h with
  | pop h hsp =>
    rw [getElem_seven_set h, if_neg h7] at hsp
    exact ⟨hsp, (State.sp_of_regs_eq_set rfl).trans (by rw [getElem_seven_set h, if_neg h7])⟩
  | alu hi | jump hi | fallThrough hi => cases hi

/-! ### The obligations -/

/-- Settles O32: PUSH's rule; the written cell reads back because memory is canonical. -/
theorem pushStoresAtDecrementedSp : Obligations.PushStoresAtDecrementedSp := by
  intro opa s h hm hsp
  refine ⟨rfl, _, exec_push_of_lt hsp h, Vector.getElem_set_self (by decide), ?otherRegs, Memory.read_write_same hm _ _,
    sameMemExcept_of_mem_eq_write rfl, rfl, rfl⟩
  case otherRegs => exact sameRegsExcept_of_regs_eq_set (by decide) rfl

/-- Settles O33: both blocks begin with the decrement and its check, and read their operand after it. -/
theorem pushAndCallRaiseInOrder : Obligations.PushAndCallRaiseInOrder := by
  intro opa s i hi
  obtain rfl | rfl := List.mem_pair.mp hi
  · exact ⟨exec_push_of_sp_eq, exec_push_of_ge⟩
  · exact ⟨exec_call_of_sp_eq, exec_call_of_ge⟩

/-- Settles O34: POP's two rules; a register other than 7 keeps the popped byte while SP is incremented. -/
theorem popLoadsFromSp : Obligations.PopLoadsFromSp := by
  intro opa s h
  refine ⟨rfl,
    fun h7 hsp => ⟨_, exec_pop_of_ne_seven h h7 hsp, ?popped, Vector.getElem_set_self (by decide), ?others, rfl, rfl⟩,
    fun h7 hv => ⟨_, exec_pop_of_eq_seven h7 hv, Vector.getElem_set_self (by decide), ?others7, rfl, rfl⟩⟩
  case popped => exact (Vector.getElem_set_ne (by decide) h h7.symm).trans (Vector.getElem_set_self h)
  case others => exact sameRegsExcept_of_regs_eq_set_set h (by decide) rfl
  case others7 => exact sameRegsExcept_of_regs_eq_set (by decide) rfl

/-- Settles O35: the operand is checked when the register is written, before the increment and its check. -/
theorem popRaisesInOrder : Obligations.PopRaisesInOrder := by
  intro opa s
  refine ⟨exec_pop_of_ge, fun h hsp => exec_pop_of_underflow (by omega) ?other, fun h7 hv =>
    exec_pop_of_underflow (by omega) ?seven⟩
  case other => rw [if_neg (by omega), hsp]
  case seven => rw [if_pos h7, hv]

/-- Settles O36: by O32 the PUSH leaves SP - 1, which POP can increment back, and in the top cell the value that by O34
POP loads; for register 7 that value is itself the decremented SP. -/
theorem popAfterPushRestoresRegisterAndSp : Obligations.PopAfterPushRestoresRegisterAndSp := by
  intro opa s t u h hm hsp hpush husp hcell
  obtain ⟨-, t', hpush', htsp, -, htop, -⟩ := pushStoresAtDecrementedSp opa s h hm hsp
  obtain rfl := Host.Outcome.next.inj (hpush.symm.trans hpush')
  rw [← State.sp_eq] at htsp
  rw [htsp] at husp
  rw [htsp, htop, ← husp] at hcell
  have h255 : u.sp ≠ 255 := husp ▸ sub_one_ne_255 hsp
  have hback : u.sp + 1 = s.sp := by rw [husp, BitVec.sub_add_cancel]
  obtain ⟨-, hpop, hpop7⟩ := popLoadsFromSp opa u h
  by_cases h7 : opa.toNat = 7
  · rw [if_pos h7] at hcell
    obtain ⟨v, hv, hvsp, -, -, hframe⟩ := hpop7 h7 (by rwa [hcell])
    rw [← State.sp_eq, hcell, hback] at hvsp
    exact ⟨v, hv, hvsp, by rw [hframe], fun hne => absurd h7 hne⟩
  · rw [if_neg h7] at hcell
    obtain ⟨v, hv, hreg, hvsp, -, -, hframe⟩ := hpop h7 h255
    rw [← State.sp_eq, hback] at hvsp
    have hmem : v.mem = u.mem := by rw [hframe]
    exact ⟨v, hv, hvsp, by rw [hframe], fun _ => ⟨hreg.trans hcell, by rw [hmem, hvsp, ← husp, hcell]⟩⟩

/-- Settles O37: CALL's rule; below 254 the return address is a byte value, and widening the target keeps its number. -/
theorem callPushesReturnAddressAndJumps : Obligations.CallPushesReturnAddressAndJumps := by
  intro opa s h hm hsp hpc
  refine ⟨rfl, _, exec_call_of_lt hsp h, Vector.getElem_set_self (by decide), ?otherRegs, ?returnAddress,
    sameMemExcept_of_mem_eq_write rfl, BitVec.toNat_setWidth_of_le (by decide), rfl⟩
  case otherRegs => exact sameRegsExcept_of_regs_eq_set (by decide) rfl
  case returnAddress => rw [Memory.read_write_same hm, BitVec.toNat_ofNat, Nat.mod_eq_of_lt (by omega)]

/-- Settles O39: by O37 the CALL leaves SP - 1 and the return address in the cell there, which RET takes back. -/
theorem retAfterCallReturnsBehindIt : Obligations.RetAfterCallReturnsBehindIt := by
  intro opa s t u h hm hsp hpc hcall husp hcell
  obtain ⟨-, t', hcall', htsp, -, hret, -⟩ := callPushesReturnAddressAndJumps opa s h hm hsp hpc
  obtain rfl := Host.Outcome.next.inj (hcall.symm.trans hcall')
  rw [← State.sp_eq] at htsp
  have husp' : u.sp = s.sp - 1 := husp.trans htsp
  refine ⟨_, exec_ret_of_sp_ne (husp' ▸ sub_one_ne_255 hsp), ?pc, ?sp, rfl⟩
  case pc => rw [BitVec.toNat_setWidth_of_le (by decide), husp, hcell, htsp, hret]
  case sp => rw [State.sp_of_regs_eq_set rfl, husp', BitVec.sub_add_cancel]

/-- Settles O40: a step that runs a CALL has fetched it, so its `pc` is below 254 and `pc + 2` is a byte value. -/
theorem stepOfCallStoresWholeReturnAddress : Obligations.StepOfCallStoresWholeReturnAddress := by
  intro s t opa hm _ hd h hf
  obtain ⟨i, hpc, hdi, he⟩ := step_completes_of_noFault h hf
  obtain rfl : Instr.call opa = i := Except.ok.inj (hd.symm.trans hdi)
  obtain ⟨-, hregs, hmem⟩ := he.call_inv
  refine ⟨?_, by omega, by omega⟩
  rw [State.sp_of_regs_eq_set hregs, hmem, Memory.read_write_same hm, BitVec.toNat_ofNat, Nat.mod_eq_of_lt (by omega)]

/-- Settles O41: each of the four completes only with SP away from its bound, where the sum or difference is exact. -/
theorem stackPointerMovesWithoutWrap : Obligations.StackPointerMovesWithoutWrap := by
  intro s t opa _ hf
  refine ⟨fun h => ?push, fun h => ?call, fun h => ?ret, fun h7 h => ?pop⟩
  case push =>
    obtain ⟨hsp, hregs⟩ := (Effect.of_exec_noFault h hf).push_inv
    rw [State.sp_of_regs_eq_set hregs, toNat_sub_one_add_one hsp]
  case call =>
    obtain ⟨hsp, hregs, -⟩ := (Effect.of_exec_noFault h hf).call_inv
    rw [State.sp_of_regs_eq_set hregs, toNat_sub_one_add_one hsp]
  case ret =>
    obtain ⟨hsp, hregs⟩ := (Effect.of_exec_noFault h hf).ret_inv
    rw [State.sp_of_regs_eq_set hregs, toNat_add_one hsp]
  case pop =>
    obtain ⟨hsp, ht⟩ := (Effect.of_exec_noFault h hf).pop_inv h7
    rw [ht, toNat_add_one hsp]

end Sys2Proof.Machine
end

section
/-! SUPPORT and PROOFS. Faults (spec 60_exceptions.md R200 to R211) and the step as a whole: which instruction takes
which fault with which info, when none is taken, the fetch at the top of memory, and the obligations on them. -/

namespace Sys2Proof.Machine

/-! ### The kind of a fault and its instruction -/

/-- The info of DivisionByZero is the dividend, its instruction is DIV or MOD and its divisor is 0 (R204). -/
theorem Raises.divisionByZero_inv {s : State} {i : Instr} {k : Raise} (h : Raises s i k)
    (hk : k.kind = .divisionByZero) :
    ∃ (opa opb : Byte) (ha : opa.toNat < 8) (hb : opb.toNat < 8), (i = .div opa opb ∨ i = .mod opa opb) ∧
      s.regs[opb.toNat] = 0 ∧ k = .divisionByZero s.regs[opa.toNat] := by
  cases h with
  | zeroDivisor hi hop ha hb h0 =>
    refine ⟨_, _, ha, hb, ?_, h0, rfl⟩
    rcases hop with rfl | rfl <;> cases i <;> cases hi
    · exact .inl rfl
    · exact .inr rfl
  | badRegister | overflow | underflow => cases hk

/-- No instruction accesses memory outside the address space: its OutOfBounds is that of a register operand (R52). -/
theorem Raises.outOfBounds_inv {s : State} {i : Instr} {k : Raise} (h : Raises s i k) (hk : k.kind = .outOfBounds) :
    ∃ b ∈ i.regOperands, 8 ≤ b.toNat ∧ k = .regOutOfBounds b.toNat := by
  cases h with
  | badRegister hb h => exact ⟨_, hb, h, rfl⟩
  | zeroDivisor | overflow | underflow => cases hk

theorem Raises.stackOverflow_inv {s : State} {i : Instr} {k : Raise} (h : Raises s i k) (hk : k.kind = .stackOverflow) :
    (i.mnemonic = .PUSH ∨ i.mnemonic = .CALL) ∧ s.sp = 0 ∧ k = .stackOverflow 0 := by
  cases h with
  | overflow hi h => exact ⟨hi, h, rfl⟩
  | badRegister | zeroDivisor | underflow => cases hk

theorem Raises.stackUnderflow_inv {s : State} {i : Instr} {k : Raise} (h : Raises s i k)
    (hk : k.kind = .stackUnderflow) : (i.mnemonic = .POP ∨ i.mnemonic = .RET) ∧ k = .stackUnderflow 255 := by
  cases h with
  | underflow hi => exact ⟨hi, rfl⟩
  | badRegister | zeroDivisor | overflow => cases hk

/-- UnsupportedOperation is among the faults of no instruction (D22). -/
theorem Raises.kind_ne_unsupportedOperation {s : State} {i : Instr} {k : Raise} (h : Raises s i k) :
    k.kind ≠ .unsupportedOperation := by
  cases h <;> exact FaultKind.noConfusion

/-- An instruction that ends with a latched kind, begun with an empty latch, has raised it. -/
theorem Raises.of_exec {i : Instr} {s t : State} (hs : s.fault = .noFault) (h : exec i s = .next t)
    (hf : t.fault ≠ .noFault) : ∃ k, Raises s i k ∧ t = s.raise k := by
  rcases exec_inversion h with he | hk
  · obtain ⟨-, hfault, -⟩ := he.keeps_latch
    exact absurd (hfault.trans hs) hf
  · exact hk

/-! ### Instructions that take no fault -/

theorem Instr.regsInRange_iff (i : Instr) : i.regsInRange = true ↔ ∀ b ∈ i.regOperands, b.toNat < 8 := by
  simp [Instr.regsInRange]

/-- POP and RET leave the latch alone when what they increment is not 255: SP, or for POP R7 the byte at SP (R163). -/
theorem exec_keeps_fault_of_pop_or_ret {i : Instr} {s : State} (hi : i.mnemonic = .POP ∨ i.mnemonic = .RET)
    (hreg : i.regsInRange = true) (hsp : s.sp ≠ 255) (hv : Memory.read s.mem s.sp.toNat ≠ 255) :
    ∃ t, exec i s = .next t ∧ t.fault = s.fault := by
  cases i with
  | pop opa =>
    have h : opa.toNat < 8 := (Instr.regsInRange_iff _).mp hreg opa (List.mem_singleton_self opa)
    by_cases h7 : opa.toNat = 7
    · exact ⟨_, exec_pop_of_eq_seven h7 hv, rfl⟩
    · exact ⟨_, exec_pop_of_ne_seven h h7 hsp, rfl⟩
  | ret => exact ⟨_, exec_ret_of_sp_ne hsp, rfl⟩
  | hlt | ldi | prn | mul | add | cmp | push | call | jmp | jeq | jne | jlt | jgt | jge | sub | div | mod | and | xor =>
    rcases hi with hi | hi <;> cases hi

/-! ### The obligations -/

/-- Settles O8: a running machine whose window decodes runs that instruction and does nothing else. -/
theorem stepRunsDecodedInstruction : Obligations.StepRunsDecodedInstruction := by
  intro s i hs hpc hd
  exact step_of_decode hs hpc hd

/-- Settles O11: from 254 on one of the window's three addresses is 256, and it is the first beyond memory. -/
theorem fetchAtTopOfMemoryFaults : Obligations.FetchAtTopOfMemoryFaults := by
  intro s hs hlo hhi
  rw [step_running hs, if_neg (by omega), max_eq_right hhi, State.raise_eq_latched]
  rfl

/-- Settles O54: the codes are written out in the model. -/
theorem faultCodesAreTabulated : Obligations.FaultCodesAreTabulated := rfl

/-- Settles O31: only DIV and MOD raise DivisionByZero, and what a window decodes to is dispatched (O7), which without
the option they are not. -/
theorem noDivisionByZeroWithoutOption : Obligations.NoDivisionByZeroWithoutOption := by
  intro s t hext h hf
  obtain ⟨hs, ⟨k, rfl, ⟨rfl, -⟩ | ⟨rfl, -⟩⟩ | ⟨i, -, hd, hexec⟩⟩ := step_cases h
  · cases hf
  · cases hf
  · obtain ⟨hdispatched, -, -⟩ := encodeOfDecodeIsWindowPrefix _ _ _ _ _ hd
    obtain ⟨k, hk, rfl⟩ := Raises.of_exec hs.2 hexec (by rw [hf]; exact FaultKind.noConfusion)
    obtain ⟨opa, opb, -, -, hi, -⟩ := hk.divisionByZero_inv hf
    have hoptional : i.mnemonic.optional = true := by rcases hi with rfl | rfl <;> rfl
    rw [Instr.wellFormed, Config.dispatches_iff, hext] at hdispatched
    exact hdispatched.elim (fun hne => hne hoptional) Bool.false_ne_true

/-- Settles O52: a kind in the latch after an instruction is one of its raises, whose kinds each have their
instructions. -/
theorem faultKindsComeFromTheirInstructions : Obligations.FaultKindsComeFromTheirInstructions := by
  intro i s t hs h
  by_cases hf : t.fault = .noFault
  · simp [hf]
  · obtain ⟨k, hk, rfl⟩ := Raises.of_exec hs h hf
    refine ⟨fun hkind => ?division, fun hkind => ?overflow, fun hkind => ?underflow, fun hkind => ?bounds,
      hk.kind_ne_unsupportedOperation, hk.kind_ne_unknownInstruction⟩
    case division =>
      obtain ⟨opa, opb, -, -, rfl | rfl, -⟩ := hk.divisionByZero_inv hkind <;> simp [Instr.mnemonic]
    case overflow =>
      obtain ⟨hi, -, -⟩ := hk.stackOverflow_inv hkind
      exact List.mem_pair.mpr hi
    case underflow =>
      obtain ⟨hi, -⟩ := hk.stackUnderflow_inv hkind
      exact List.mem_pair.mpr hi
    case bounds =>
      obtain ⟨b, hb, h8, rfl⟩ := hk.outOfBounds_inv hkind
      exact ⟨b, hb, h8, rfl⟩

/-- Settles O53: exec answers a next state, and each fault it could have taken is excluded by one of the hypotheses; the
`pc` is then O48's. -/
theorem wellBehavedInstructionsComplete : Obligations.WellBehavedInstructionsComplete := by
  intro i s hs hreg hsp0 hsp255 hv hdiv
  obtain ⟨t, ht⟩ := exec_answers_next i s
  have hf : t.fault = .noFault := by
    by_contra hf
    obtain ⟨k, hk, rfl⟩ := Raises.of_exec hs ht hf
    cases hk with
    | badRegister hb h => exact absurd ((Instr.regsInRange_iff i).mp hreg _ hb) (Nat.not_lt.mpr h)
    | zeroDivisor hi hop ha hb h0 =>
      obtain ⟨opa, opb, -, hb, hi, h0, -⟩ := (Raises.zeroDivisor hi hop ha hb h0).divisionByZero_inv rfl
      exact hdiv opa opb hi ((regOf_of_lt _ hb).trans h0)
    | overflow hi h => exact hsp0 h
    | underflow hi =>
      obtain ⟨u, hu, hfault⟩ := exec_keeps_fault_of_pop_or_ret hi hreg hsp255 hv
      obtain rfl := Host.Outcome.next.inj (ht.symm.trans hu)
      exact hf (hfault.trans hs)
  obtain ⟨hpc, -⟩ := programCounterAfterEachInstruction i s t hs ht
  exact ⟨t, ht, hf, hpc hf⟩

/-- Settles O51: a step that ends Faulted is a raise, so the latch alone has changed. The fetch and the dispatch raise
what R106 says of them, and an instruction a kind of its own with the info of that kind. -/
theorem faultingStepChangesOnlyTheLatch : Obligations.FaultingStepChangesOnlyTheLatch := by
  intro s t fetched h hf hd
  obtain ⟨hs, ⟨k, rfl, ⟨rfl, hpc⟩ | ⟨rfl, hpc⟩⟩ | ⟨i, hpc, hdi, hexec⟩⟩ := step_cases h
  · exact ⟨_, s.raise_eq_latched _, fun _ => .inl ⟨hpc, rfl⟩, nofun, nofun, nofun, nofun⟩
  · have hmiss : s.cfg.lookup (Memory.read s.mem s.pc.toNat) = none := by
      obtain ⟨-, hhit⟩ := dispatchRaisesOnlyOnTrueMiss s hs (by omega)
      refine Option.eq_none_iff_forall_ne_some.mpr fun m hm => ?_
      obtain ⟨-, hne⟩ := hhit m hm
      exact hne _ h rfl
    rw [decode_of_lookup_none hmiss] at hd
    exact ⟨_, s.raise_eq_latched _, nofun, nofun, fun _ => ⟨hd.symm, rfl⟩, nofun, nofun⟩
  · obtain rfl : .ok i = fetched := hdi.symm.trans hd
    obtain ⟨k, hk, rfl⟩ := Raises.of_exec hs.2 hexec hf
    refine ⟨_, s.raise_eq_latched k, fun hkind => .inr ?bounds, fun hkind => ?division,
      fun hkind => absurd hkind hk.kind_ne_unknownInstruction, fun hkind => ?overflow, fun hkind => ?underflow⟩
    case bounds =>
      obtain ⟨b, hb, h8, rfl⟩ := hk.outOfBounds_inv hkind
      exact ⟨i, hpc, rfl, b, hb, h8, rfl⟩
    case division =>
      obtain ⟨opa, opb, ha, -, hi, -, rfl⟩ := hk.divisionByZero_inv hkind
      exact ⟨opa, opb, ha, hi.imp (congrArg _) (congrArg _), rfl⟩
    case overflow =>
      obtain ⟨-, hsp, rfl⟩ := hk.stackOverflow_inv hkind
      exact ⟨hsp, rfl⟩
    case underflow =>
      obtain ⟨-, rfl⟩ := hk.stackUnderflow_inv hkind
      rfl

end Sys2Proof.Machine
end

section
/-! SUPPORT and PROOFS. What a step reads of memory and what the next step sees of it (spec 20_memory.md R51, R62, R66):
each instruction over another memory that agrees on the cell at SP, and the obligations on reads and on stores. -/

namespace Sys2Proof.Machine

/-! ### A block over another memory -/

/-- The memory an instruction completed from `s` leaves of `m`: PUSH and CALL write the new top of the stack (R66). -/
def memAfter (i : Instr) (s : State) (m : List Host.Cell) : List Host.Cell :=
  match i with
  | .push opa => Memory.write m (s.sp - 1).toNat (regOf (s.regs.set 7 (s.sp - 1)) opa.toNat)
  | .call _ => Memory.write m (s.sp - 1).toNat s.returnAddress
  | .hlt | .ldi _ _ | .prn _ | .mul _ _ | .add _ _ | .cmp _ _ | .pop _ | .ret | .jmp _ | .jeq _ | .jne _ | .jlt _
  | .jgt _ | .jge _ | .sub _ _ | .div _ _ | .mod _ _ | .and _ _ | .xor _ _ => m

theorem aluBlock_over_memory (op : AluOp) (opa opb : Byte) (s : State) (m : List Host.Cell) :
    aluBlock op opa opb { s with mem := m } = (aluBlock op opa opb s).map fun t => { t with mem := m } := by
  simp only [aluBlock_eq]
  split_ifs
  · cases alu op _ _ <;> rfl
  · rfl
  · rfl

theorem branchBlock_over_memory (taken : Bool) (opa : Byte) (s : State) (m : List Host.Cell) :
    branchBlock taken opa { s with mem := m } = (branchBlock taken opa s).map fun t => { t with mem := m } := by
  simp only [branchBlock_eq]
  split_ifs <;> rfl

/-- Over a memory that agrees on the cell at SP an instruction's block answers the same, but for memory (R51). -/
theorem blockOf_over_memory (i : Instr) {s : State} {m : List Host.Cell}
    (hsp : Memory.read m s.sp.toNat = Memory.read s.mem s.sp.toNat) :
    blockOf i { s with mem := m } = (blockOf i s).map fun t => { t with mem := memAfter i s m } := by
  rw [State.sp_eq] at hsp
  cases i with
  | hlt => rfl
  | ldi opa imm =>
    simp only [blockOf, ldiBlock_eq]
    split_ifs <;> rfl
  | prn opa =>
    simp only [blockOf, prnBlock_eq]
    split_ifs <;> rfl
  | push opa =>
    simp only [blockOf, pushBlock_eq]
    split_ifs with h0 h
    · rfl
    · simp only [Except.map, memAfter, State.sp_eq, regOf_of_lt _ h]
    · rfl
  | pop opa =>
    simp only [blockOf, popBlock_eq, hsp]
    split_ifs <;> rfl
  | call opa =>
    simp only [blockOf, callBlock_eq]
    split_ifs <;> rfl
  | ret =>
    simp only [blockOf, retBlock_eq, hsp]
    split_ifs <;> rfl
  | mul opa opb => exact aluBlock_over_memory .MUL opa opb s m
  | add opa opb => exact aluBlock_over_memory .ADD opa opb s m
  | cmp opa opb => exact aluBlock_over_memory .CMP opa opb s m
  | sub opa opb => exact aluBlock_over_memory .SUB opa opb s m
  | div opa opb => exact aluBlock_over_memory .DIV opa opb s m
  | mod opa opb => exact aluBlock_over_memory .MOD opa opb s m
  | and opa opb => exact aluBlock_over_memory .AND opa opb s m
  | xor opa opb => exact aluBlock_over_memory .XOR opa opb s m
  | jmp => exact branchBlock_over_memory true _ s m
  | jeq | jne | jlt | jgt | jge => exact branchBlock_over_memory _ _ s m

theorem blockOf_mem {i : Instr} {s t : State} (h : blockOf i s = .ok t) : t.mem = memAfter i s s.mem := by
  have hself := blockOf_over_memory i (s := s) rfl
  rw [h] at hself
  exact congrArg State.mem (Except.ok.inj hself)

/-! ### What two memories have in common after an instruction -/

/-- A cell on which two canonical memories agree reads alike after the instruction. -/
theorem read_memAfter_congr (i : Instr) (s : State) {m n : List Host.Cell} (hm : Memory.wf m = true)
    (hn : Memory.wf n = true) {a : Nat} (h : Memory.read m a = Memory.read n a) :
    Memory.read (memAfter i s m) a = Memory.read (memAfter i s n) a := by
  cases i with
  | push | call => simp only [memAfter, Memory.read_write hm, Memory.read_write hn, h]
  | hlt | ldi | prn | mul | add | cmp | pop | ret | jmp | jeq | jne | jlt | jgt | jge | sub | div | mod | and | xor =>
    exact h

/-- The cell that a PUSH or a CALL has written reads alike in two canonical memories, whatever it held before. -/
theorem read_memAfter_top {i : Instr} {opa : Byte} (hi : i = .push opa ∨ i = .call opa) (s : State)
    {m n : List Host.Cell} (hm : Memory.wf m = true) (hn : Memory.wf n = true) :
    Memory.read (memAfter i s m) (s.sp - 1).toNat = Memory.read (memAfter i s n) (s.sp - 1).toNat := by
  rcases hi with rfl | rfl <;> simp only [memAfter, Memory.read_write_same hm, Memory.read_write_same hn]

/-- An instruction over another memory that agrees on the cell at SP: it completes in the same state, or takes the same
fault, but for memory. -/
theorem exec_over_memory {i : Instr} {s t : State} {m : List Host.Cell} (h : exec i s = .next t)
    (hsp : Memory.read m s.sp.toNat = Memory.read s.mem s.sp.toNat) :
    (t.mem = memAfter i s s.mem ∧ exec i { s with mem := m } = .next { t with mem := memAfter i s m }) ∨
      (t.fault ≠ .noFault ∧ t.mem = s.mem ∧ exec i { s with mem := m } = .next { t with mem := m }) := by
  rw [exec_eq_complete i { s with mem := m }, blockOf_over_memory i hsp]
  rcases (exec_cases i s t).mp h with hok | ⟨k, hk, rfl⟩
  · exact .inl ⟨blockOf_mem hok, by rw [hok]; rfl⟩
  · exact .inr ⟨k.kind_ne_noFault, rfl, by rw [hk]; rfl⟩

/-- Over a memory that agrees on the three cells of the window the step raises the same fault or runs the same
instruction (R101, R112). -/
theorem step_over_memory {s : State} {m : List Host.Cell} (hs : s.running)
    (h0 : Memory.read m s.pc.toNat = Memory.read s.mem s.pc.toNat)
    (h1 : Memory.read m (s.pc.toNat + 1) = Memory.read s.mem (s.pc.toNat + 1))
    (h2 : Memory.read m (s.pc.toNat + 2) = Memory.read s.mem (s.pc.toNat + 2)) :
    (∃ k, step s = .next (s.raise k) ∧ step { s with mem := m } = .next { s.raise k with mem := m }) ∨
      ∃ i, decode s.cfg (Memory.read s.mem s.pc.toNat) (Memory.read s.mem (s.pc.toNat + 1))
          (Memory.read s.mem (s.pc.toNat + 2)) = .ok i ∧
        step s = exec i s ∧ step { s with mem := m } = exec i { s with mem := m } := by
  have hs' : State.running { s with mem := m } := hs
  by_cases hpc : s.pc.toNat + 2 < 256
  · cases hl : s.cfg.lookup (Memory.read s.mem s.pc.toNat) with
    | none =>
      refine .inl ⟨_, step_of_lookup_none hs hpc hl, ?_⟩
      rw [step_of_lookup_none hs' hpc (by rw [h0]; exact hl), h0]
      rfl
    | some mn =>
      refine .inr ⟨_, decode_of_lookup hl _ _, step_of_decode hs hpc (decode_of_lookup hl _ _), ?_⟩
      refine step_of_decode hs' hpc ?_
      rw [h0, h1, h2]
      exact decode_of_lookup hl _ _
  · refine .inl ⟨_, by rw [step_running hs, if_neg hpc], ?_⟩
    rw [step_running hs', if_neg hpc]
    rfl

/-! ### The obligations -/

/-- Settles O50: the two windows are the same, so both steps raise the same fault or run the same instruction, which
reads memory at SP only; what it writes is written alike to both memories. -/
theorem stepReadsOnlyWindowAndStackTop : Obligations.StepReadsOnlyWindowAndStackTop := by
  intro s t m hcells h
  simp only [List.forall_mem_cons] at hcells
  obtain ⟨h0, h1, h2, hsp, -⟩ := hcells
  rcases step_over_memory (step_cases h).1 h0 h1 h2 with ⟨k, hk, hk'⟩ | ⟨i, hd, hi, hi'⟩
  · obtain rfl := Host.Outcome.next.inj (h.symm.trans hk)
    exact ⟨_, hk', rfl, fun _ _ => ⟨fun a ha => ha, fun opa hf => absurd hf k.kind_ne_noFault⟩⟩
  · rcases exec_over_memory (hi.symm.trans h) hsp with ⟨hmem, hexec⟩ | ⟨hf, hmem, hexec⟩
    · refine ⟨_, hi'.trans hexec, rfl, fun hm hm' => ?_⟩
      rw [hmem]
      refine ⟨fun a => read_memAfter_congr i s hm' hm, fun opa _ hopa => ?_⟩
      rw [hd, List.mem_pair, Except.ok.injEq, Except.ok.injEq] at hopa
      exact read_memAfter_top hopa s hm' hm
    · refine ⟨_, hi'.trans hexec, rfl, fun _ _ => ?_⟩
      rw [hmem]
      exact ⟨fun a ha => ha, fun opa hf' => absurd hf' hf⟩

/-- Settles O59: by O9 the PUSH runs. It stores HLT's byte at SP - 1, which is the `pc` it ends at, so by O9 again HLT
runs next. -/
theorem pushedOpcodeRunsNext : Obligations.PushedOpcodeRunsNext := by
  intro s opa h hs hl hm hpc hop hopa hsp hreg
  have hsp0 : s.sp ≠ 0 := fun h0 => by
    rw [h0] at hsp
    exact absurd hsp (by simp)
  have hpush : step s = exec (.push opa) s := placedEncodingIsWhatRuns s _ hs hl rfl (by omega) fun k b hb => by
    match k with
    | 0 => cases hb; exact hop
    | 1 => cases hb; exact hopa
    | k + 2 => cases hb
  obtain ⟨t, ht, hrunning, hcfg, hpc2, hcell⟩ : ∃ t, step s = .next t ∧ t.running ∧ t.cfg = s.cfg ∧
      t.pc = (s.advance 2).pc ∧ Memory.read t.mem (s.sp - 1).toNat = s.cfg.opc.hlt :=
    ⟨_, hpush.trans (exec_push_of_lt hsp0 (by omega)), hs, rfl, rfl, by
      rw [Memory.read_write_same hm, if_neg (by omega), hreg]⟩
  have htpc : t.pc.toNat = s.pc.toNat + 2 := hpc2 ▸ State.advance_pc_toNat (k := 2) (by omega) (by decide)
  have htop : t.pc.toNat = (s.sp - 1).toNat := by
    have hdec := toNat_sub_one_add_one hsp0
    omega
  have hhlt : step t = exec .hlt t :=
    placedEncodingIsWhatRuns t _ hrunning (hcfg ▸ hl) rfl (by omega) fun k b hb => by
      match k with
      | 0 => cases hb; rw [Nat.add_zero, htop, hcell, hcfg]; rfl
      | k + 1 => cases hb
  refine ⟨t, _, ht, hhlt.trans (exec_hlt t), rfl, hrunning.2, ?_⟩
  exact (State.advance_pc_toNat (k := 1) (by omega) (by decide)).trans (by rw [htpc]; rfl)

end Sys2Proof.Machine
end
